-- ==== Sys2Proof/Word.lean ====
section
/-! DEFINITION. The two word types of the BCDEC core: a byte of the block or of the destination,
and a 32-bit host-visible register value (R7: XLEN is fixed at 32). -/

namespace Sys2Proof

/-- A byte: one block register (R20) or one destination byte (R50). -/
abbrev Byte := BitVec 8

/-- The value of a host-visible register, XLEN = 32 bits (R7). -/
abbrev Word := BitVec 32

end Sys2Proof
end

