-- ==== Sys2Proof/Config.lean ====
section
/-! DEFINITION. What a build of the core fixes (R7) and the free values the spec leaves open
(U1, U4, and the bytes of `DST` that nothing has stored to). A free value is a constant with no body: no proof can learn it. -/

namespace Sys2Proof

/-- The build parameters of R7 other than the number of core instances, which is 1 + the length of
`State.others`. A step never changes them (DESIGN CHOICE, safe, log 1). -/
structure Config where
  /-- `AW`: width in bits of a destination byte address, of `DST_BASE`, `DST_LEN` and `PITCH`. -/
  aw : Nat
  deriving DecidableEq, Repr

namespace Config

/-- The default build of R7: `AW` = 32. -/
def standard : Config := { aw := 32 }

/-- R7: the legal range of `AW` is 8 to 32. -/
def legal (c : Config) : Bool := decide (8 ≤ c.aw) && decide (c.aw ≤ 32)

/-- The size of the destination space, `2^AW` bytes (R50). -/
def space (c : Config) : Nat := 2 ^ c.aw

/-- FREE VALUE (U1, R34; log 3). The value of `BLK[i]` after the `n`-th reset counted by
`State.fresh`: the spec says "unspecified". -/
opaque blkAtReset (n i : Nat) : Byte

/-- FREE VALUE (R50; log 5). The value of `DST[a]` before anything has been stored there: `DST`
belongs to the host, and the spec gives it no contents (R34, R240). -/
opaque dstBeforeStores (a : Nat) : Byte

/-- FREE VALUE (U4, R64; log 10). Of a byte at address `a` that two commands running together on
different instances both store to: whether the value already there is the one that stays, in the
draw numbered `n`. -/
opaque raceKeepsEarlier (n a : Nat) : Bool

end Config

end Sys2Proof
end

