-- ==== Sys2Proof/Syntax.lean ====
section
/-! DEFINITION. The command set: one constructor per row of spec/opcode_table.json (R2, R82). -/

namespace Sys2Proof

/-- The six commands of R82. A command word has no operand field (R81), so no constructor has an
argument: the block is in `BLK`, the destination in `DST_BASE`, `DST_LEN` and `PITCH`. -/
inductive Instr where
  /-- `DCOLOR`, decode an opaque colour block (R187). -/
  | dcolor
  /-- `DCOLORP`, decode a colour block with punch-through enabled (R188). -/
  | dcolorp
  /-- `DSHARP`, decode an explicit-alpha block with sharp transitions (R189). -/
  | dsharp
  /-- `DSMOOTH`, decode an explicit-alpha block with smooth transitions (R190). -/
  | dsmooth
  /-- `DMONO`, decode a single smooth channel (R191). -/
  | dmono
  /-- `DDUAL`, decode a dual smooth channel (R192). -/
  | ddual
  deriving DecidableEq, Repr

end Sys2Proof
end

