-- ==== Sys2Proof/Machine/Script.lean ====
section
/-! DEFINITION. Host scripts: the host's primitive operations and their encodings (R91), the register
numbers (R80) and the pseudo-instructions (R92; their expansions are in Machine/Pseudo.lean). -/

namespace Sys2Proof.Machine

/-- One access of the host (R91), with the host's two ways to reach its own memory (R32(b)) and the
two ways to use several core instances (R64, R224). -/
inductive HostOp where
  /-- `WR reg, value` (R91): write a register of the addressed instance. -/
  | wr (reg : Nat) (value : Word)
  /-- `RD reg` (R91): read a register of the addressed instance. -/
  | rd (reg : Nat)
  /-- `RESET` (R91): the reset event of R240 on the addressed instance. -/
  | reset
  /-- `MEM a = v0 v1 ...` as the start state of a script (R91): the host fills its own memory. -/
  | mem (addr : Nat) (bytes : List Byte)
  /-- The host reads the byte `DST[addr]` (R32(b), R61). -/
  | load (addr : Nat)
  /-- The host turns to another instance: the addressed one and number `k` of the others change
  places (R224; DESIGN CHOICE, safe, log 2). -/
  | select (k : Nat)
  /-- `CMD` is written on several instances so that the commands run together (R64). A pair is
  (instance, command word); instance 0 is the addressed one, `k + 1` is number `k` of the others. -/
  | together (cmds : List (Nat × Word))
  deriving DecidableEq, Repr

/-! R80: the register numbers. -/

abbrev regCmd : Nat := 0x00
abbrev regStatus : Nat := 0x01
abbrev regDstBase : Nat := 0x02
abbrev regDstLen : Nat := 0x03
abbrev regPitch : Nat := 0x04
abbrev regBlkCnt : Nat := 0x05
abbrev regBlkW0 : Nat := 0x08
abbrev regBlkW1 : Nat := 0x09
abbrev regBlkW2 : Nat := 0x0A
abbrev regBlkW3 : Nat := 0x0B

/-- The command word an access writes to `CMD`, if that is what it does (R24, R27: the write of
`CMD` is the unit of execution). -/
def HostOp.command? : HostOp → Option Word
  | .wr reg w => if reg = regCmd then some w else none
  | .rd _ | .reset | .mem _ _ | .load _ | .select _ | .together _ => none

/-- R246: whether an access writes `CMD`, of whichever instance. -/
def HostOp.writesCmd : HostOp → Bool
  | .wr reg _ => decide (reg = regCmd)
  | .together cmds => !cmds.isEmpty
  | .rd _ | .reset | .mem _ _ | .load _ | .select _ => false

/-- R91's column of encodings: `(number, value)` for a `WR`, `(number, -)` for an `RD`. The other
accesses are not register accesses of the script language. -/
def HostOp.pair? : HostOp → Option (Nat × Option Word)
  | .wr reg v => some (reg, some v)
  | .rd reg => some (reg, none)
  | .reset | .mem _ _ | .load _ | .select _ | .together _ => none

/-- The pair of an access that has a value: a `WR`'s. -/
def HostOp.valuePair? (op : HostOp) : Option (Nat × Word) :=
  op.pair?.bind fun p => p.2.map fun v => (p.1, v)

/-- A program's encoding is its list of (number, value) pairs (R91), those of its `WR` lines. -/
def scriptPairs (script : List HostOp) : List (Nat × Word) := script.filterMap HostOp.valuePair?

/-- The pseudo-instructions of R92. -/
inductive Pseudo where
  /-- `BLK v0, ..., v(n-1)` with `n ≤ 16`. -/
  | blk (bytes : List Byte)
  /-- `DST base, len, pitch`. -/
  | dst (base len pitch : Word)
  /-- One of the six command mnemonics. -/
  | command (i : Instr)
  /-- `WAIT`: read `STATUS`. -/
  | wait
  deriving DecidableEq, Repr

end Sys2Proof.Machine
end

