-- ==== Sys2Proof/WellFormed.lean ====
section
/-! DEFINITION. Which command words, pseudo-instructions and host accesses are well formed. -/

namespace Sys2Proof

/-- The field `FMT` of a command word, bits [2:0] (R24, R81). -/
def cmdFmt (w : Word) : Nat := (w.extractLsb' 0 3).toNat

/-- The field `PT` of a command word, bit [3] (R24, R81). -/
def cmdPt (w : Word) : Bool := w.getLsbD 3

/-- The reserved field of a command word, bits [31:4] (R24, R81). -/
def cmdReserved (w : Word) : Nat := (w.extractLsb' 4 28).toNat

/-- R24's column of legal values: `FMT` 0 to 4, `PT` = 1 only with `FMT` = 0, the rest 0. -/
def cmdWordLegal (w : Word) : Bool :=
  decide (cmdReserved w = 0) && decide (cmdFmt w ≤ 4) && (!cmdPt w || decide (cmdFmt w = 0))

/-- Every term of `Instr` is well formed: a command word has no operand (R81). -/
def Instr.wf : Instr → Bool
  | .dcolor | .dcolorp | .dsharp | .dsmooth | .dmono | .ddual => true

namespace Machine

/-- R92: `BLK` takes 0 to 16 bytes. -/
def Pseudo.wf : Pseudo → Bool
  | .blk bytes => decide (bytes.length ≤ 16)
  | .dst _ _ _ | .command _ | .wait => true

/-- A host access is well formed for a build with `ninst` instances: an address is inside `DST`
(R50), an instance exists, and no instance runs two commands at once (R56). -/
def HostOp.wf (c : Config) (ninst : Nat) : HostOp → Bool
  | .wr _ _ | .rd _ | .reset => true
  | .mem a bytes => decide (a + bytes.length ≤ c.space)
  | .load a => decide (a < c.space)
  | .select k => decide (k + 1 < ninst)
  | .together cmds =>
      cmds.all (fun kw => decide (kw.1 < ninst)) && decide (cmds.map Prod.fst).Nodup

end Machine

end Sys2Proof
end

