-- ==== Sys2Proof/Decode.lean ====
section
/-! DEFINITION. The command decoder (R82, R83), total on every 32-bit word, and after it the
encoder, both from the table of R82. -/

namespace Sys2Proof

/-- Why a word spells no command: the three kinds of illegal word R83 lists. The names are the
model's (DESIGN CHOICE, safe, log 14); the core's answer to all three is `IllegalCommand`. -/
inductive DecodeError where
  /-- A 1 in bits [31:4]. -/
  | reservedBitsSet
  /-- `FMT` = 5, 6 or 7. -/
  | formatUnassigned
  /-- `PT` = 1 with `FMT` = 1 to 4. -/
  | punchThroughNotAllowed
  deriving DecidableEq, Repr

/-- Which of R83's kinds an illegal word is. -/
def classifyIllegal (w : Word) : DecodeError :=
  if cmdReserved w ≠ 0 then .reservedBitsSet
  else if 4 < cmdFmt w then .formatUnassigned
  else .punchThroughNotAllowed

/-- R82: all 32 bits are compared with each of the six words; R83: any other word is illegal. -/
def decode (w : Word) : Except DecodeError Instr :=
  if w = 0x00000000#32 then .ok .dcolor
  else if w = 0x00000008#32 then .ok .dcolorp
  else if w = 0x00000001#32 then .ok .dsharp
  else if w = 0x00000002#32 then .ok .dsmooth
  else if w = 0x00000003#32 then .ok .dmono
  else if w = 0x00000004#32 then .ok .ddual
  else .error (classifyIllegal w)

/-- The host's numbering of a row's bits: `w` holds the command word, bit 0 its least significant
bit; a command is one 32-bit word (R81), bits from `nbits` up are 0. -/
def decodeTableWord (nbits w : Nat) : Option Instr :=
  match decode (BitVec.ofNat 32 (w % 2 ^ nbits)) with
  | .ok i => some i
  | .error _ => none

/-- `FMT` of a command, R82. -/
def encodeFmt : Instr → BitVec 3
  | .dcolor => 0
  | .dcolorp => 0
  | .dsharp => 1
  | .dsmooth => 2
  | .dmono => 3
  | .ddual => 4

/-- `PT` of a command, R82. -/
def encodePt : Instr → BitVec 1
  | .dcolorp => 1
  | .dcolor | .dsharp | .dsmooth | .dmono | .ddual => 0

/-- The command word of R81: 28 reserved zero bits, `PT`, `FMT`. -/
def encode (i : Instr) : Word := 0#28 ++ encodePt i ++ encodeFmt i

end Sys2Proof
end

