-- ==== Sys2Proof/Machine/State.lean ====
section
/-! DEFINITION. The state of the BCDEC core and its host, as plain data, and the state after reset
(10_state.md, 20_memory.md). -/

namespace Sys2Proof.Machine

/-- `STATUS` (R25): three stored fields; the reserved bits read 0 and have no storage. -/
structure Status where
  /-- `DONE`: the most recent command completed and wrote its whole tile. -/
  done : Bool
  /-- `FAULT`: a command has raised a fault since reset; sticky. -/
  fault : Bool
  /-- `CAUSE`: the code of the first and only fault (R210), 0 while `fault` is clear. -/
  cause : BitVec 4
  deriving DecidableEq, Repr

/-- The complete register state of one core instance (R20 to R26, R224). -/
structure Regs where
  /-- `BLK[0..15]` (R20); `BLKW0..3` are a view of the same bits (R21). -/
  blk : Vector Byte 16
  /-- `BLK_CNT` (R22). -/
  blkCnt : BitVec 5
  /-- `CMD`, the last command word stored (R24). -/
  cmd : Word
  /-- `STATUS` (R25). -/
  status : Status
  /-- `DST_BASE` (R26): `AW` bits, the bits above them 0. -/
  dstBase : Word
  /-- `DST_LEN` (R26): `AW` bits, the bits above them 0. -/
  dstLen : Word
  /-- `PITCH` (R26): `AW` bits, the bits above them 0. -/
  pitch : Word
  deriving DecidableEq, Repr

/-- `DST` (R50) as the bytes that have been stored, by address, addresses strictly rising. Every
address has a value (`Memory.byte`); at one that is not listed it is a free value (DESIGN CHOICE,
log 5). -/
abbrev Memory := List Host.Cell

/-- The machine: the parameters, the instances, the memory they share, and the host's side. -/
structure State where
  /-- The build's parameters (R7); no step changes them. -/
  cfg : Config
  /-- The registers of the instance the host addresses. -/
  regs : Regs
  /-- The registers of the other `NINST - 1` instances (R7, R224). -/
  others : List Regs
  /-- `DST`, shared by all instances and the host (R32(b), R50, R64). -/
  dst : Memory
  /-- The model's own: the host accesses still to come, oldest first (R91; log 6). -/
  host : List HostOp
  /-- The model's own: what the host's last read returned (log 7). -/
  rdata : Word
  /-- The model's own: how many free values have been drawn (log 4). -/
  fresh : Nat
  deriving DecidableEq, Repr

/-- Where the model stops on a host access whose outcome the spec does not give. No command ends
here: the spec's four faults (R210) are entries of `STATUS`, that is, next states (log 8). -/
inductive Fault where
  /-- A host access to a `DST` address from `2^AW` up, which does not exist (R50). Raised by the
  host's `mem` and `load`; safe (log 12). -/
  | dstNoSuchAddress
  deriving DecidableEq, Repr

/-- Why the model gives a step no meaning. -/
inductive Refusal where
  /-- The command has no meaning in the model yet. Raised by an arm of `exec`; safe. -/
  | notModelled (mnemonic : String)
  /-- The host turns to an instance the build does not have (R7). Raised by `select` and
  `together`; safe (log 11). -/
  | noSuchCore
  /-- A group of commands names one instance twice: an instance runs one command at a time (R56).
  Raised by `together`; safe (log 11). -/
  | coreNamedTwice
  deriving DecidableEq, Repr

/-- `STATUS` = 0x00000000 (R34). -/
def Status.reset : Status := { done := false, fault := false, cause := 0 }

/-- The registers after the reset numbered `n` (R34, R240). `BLK` is unspecified: a free value
(U1; DESIGN CHOICE, log 3). -/
def Regs.reset (n : Nat) : Regs :=
  { blk := Vector.ofFn fun i => Config.blkAtReset n i.val
    blkCnt := 0
    cmd := 0
    status := Status.reset
    dstBase := 0
    dstLen := 0
    pitch := 0 }

/-- A build with parameters `c` and `ninst` instances, all just reset (R7, R224), before the host
has done anything. Reset gives `DST` no contents (R34, R240). -/
def State.powerOn (c : Config) (ninst : Nat) : State :=
  { cfg := c
    regs := Regs.reset 0
    others := (List.range (ninst - 1)).map fun k => Regs.reset (k + 1)
    dst := []
    host := []
    rdata := 0
    fresh := ninst }

/-- The machine right after reset, at R7's defaults: `AW` = 32, `NINST` = 1. -/
def State.reset : State := State.powerOn Config.standard 1

end Sys2Proof.Machine
end

