-- ==== Sys2Proof/Machine/Operands.lean ====
section
/-! DEFINITION. Operands: bit and byte fields (R8, R10), pixels (R12), the halves and fields of a
block (R84 to R89), what a command needs of its operands (R82, R175, R176), and the host's views of
the registers (R21, R22, R26). -/

namespace Sys2Proof.Machine

/-! ## Fields of numbers and byte sequences -/

/-- R8: `v[hi:lo]`, the unsigned value of bits `hi` down to `lo` of `v`. -/
def bits (v hi lo : Nat) : Nat := (v >>> lo) % 2 ^ (hi - lo + 1)

/-- The byte that holds `n`; R9: every rule keeps `n` below 256. -/
def byteOf (n : Nat) : Byte := BitVec.ofNat 8 n

/-- The 8-byte sequence handed to a unit (R110, R140, R150). -/
abbrev Block := Vector Byte 8

/-- R10: `LE16(b, i)`. -/
def le16 (b : Block) (i : Nat) (h : i + 1 < 8 := by decide) : Nat :=
  b[i].toNat + 256 * b[i + 1].toNat

/-- R10: `LE32(b, i)`. -/
def le32 (b : Block) (i : Nat) (h : i + 3 < 8 := by decide) : Nat :=
  b[i].toNat + 2 ^ 8 * b[i + 1].toNat + 2 ^ 16 * b[i + 2].toNat + 2 ^ 24 * b[i + 3].toNat

/-- R10: `LE64(b, 0)`. -/
def le64 (b : Block) : Nat :=
  b[0].toNat + 2 ^ 8 * b[1].toNat + 2 ^ 16 * b[2].toNat + 2 ^ 24 * b[3].toNat
    + 2 ^ 32 * b[4].toNat + 2 ^ 40 * b[5].toNat + 2 ^ 48 * b[6].toNat + 2 ^ 56 * b[7].toNat

/-! ## Pixels -/

/-- R12, R170: the pixels of a tile in row-major order. -/
def pixels : List Nat := List.range 16

/-- R12: `row(p) = p[3:2]`. -/
def row (p : Nat) : Nat := bits p 3 2

/-- R12: `col(p) = p[1:0]`. -/
def col (p : Nat) : Nat := bits p 1 0

/-- R172: the `w` bits that pixel `p` has in an index field `f`, least significant pixel first. -/
def pixelField (f w p : Nat) : Nat := bits f (w * p + w - 1) (w * p)

/-! ## The block -/

/-- `BLK[0..8]` (R89, R186). -/
def Regs.loHalf (r : Regs) : Block :=
  #v[r.blk[0], r.blk[1], r.blk[2], r.blk[3], r.blk[4], r.blk[5], r.blk[6], r.blk[7]]

/-- `BLK[8..16]` (R89, R186). -/
def Regs.hiHalf (r : Regs) : Block :=
  #v[r.blk[8], r.blk[9], r.blk[10], r.blk[11], r.blk[12], r.blk[13], r.blk[14], r.blk[15]]

/-! ## What a command needs -/

/-- R82: the block bytes a command needs. -/
def blockBytes : Instr → Nat
  | .dcolor | .dcolorp | .dmono => 8
  | .dsharp | .dsmooth | .ddual => 16

/-- R82, R173: the pixel size of a command in bytes. -/
def pixelSize : Instr → Nat
  | .dcolor | .dcolorp | .dsharp | .dsmooth => 4
  | .dmono => 1
  | .ddual => 2

/-- R175: the minimum `PITCH`. -/
def minPitch (i : Instr) : Nat := 4 * pixelSize i

/-- R176: the length a region needs, in exact arithmetic (C6). -/
def needLen (i : Instr) (pitch : Nat) : Nat := 3 * pitch + 4 * pixelSize i

/-! ## The host's views of the registers -/

/-- R26: bits [AW-1:0] of a written value are stored, higher ones ignored. -/
def truncAw (c : Config) (v : Word) : Word := BitVec.ofNat 32 (v.toNat % 2 ^ c.aw)

/-- Four bytes as one little-endian register value (R21, R92). -/
def packWord (v0 v1 v2 v3 : Byte) : Word := v3 ++ v2 ++ v1 ++ v0

/-- R21: what the host reads from `BLKWk`. -/
def Regs.blkWord (r : Regs) (k : Fin 4) : Word :=
  packWord (r.blk[4 * k.val]'(by omega)) (r.blk[4 * k.val + 1]'(by omega))
    (r.blk[4 * k.val + 2]'(by omega)) (r.blk[4 * k.val + 3]'(by omega))

/-- R21: `BLK` after the host has written `v` to `BLKWk`: `BLK[4k + j] = v[8j+7 : 8j]`. -/
def Regs.withBlkWord (r : Regs) (k : Fin 4) (v : Word) : Regs :=
  { r with blk := Vector.ofFn fun i =>
      if i.val / 4 = k.val then v.extractLsb' (8 * (i.val % 4)) 8 else r.blk[i.val] }

end Sys2Proof.Machine
end

