-- ==== Sys2Proof/Machine/Flags.lean ====
section
/-! DEFINITION. `STATUS` and every comparison that decides something: the fault causes and their
conditions (R210 to R215), the values `STATUS` takes (R25, R185, R216), and the two comparisons of
the data path, which are stored nowhere (R28). -/

namespace Sys2Proof.Machine

/-- The four faults of R210. -/
inductive Cause where
  /-- The word written to `CMD` is no command word (R211). -/
  | illegalCommand
  /-- `BLK_CNT` is below the block size (R212). -/
  | inputShort
  /-- `PITCH` is below four pixels (R213). -/
  | pitchFault
  /-- The region is too short or does not fit the address space (R214). -/
  | outputBounds
  deriving DecidableEq, Repr

/-- The `CAUSE` codes of R210. -/
def Cause.code : Cause → BitVec 4
  | .illegalCommand => 1
  | .inputShort => 2
  | .pitchFault => 3
  | .outputBounds => 4

/-- R25: `STATUS` as the host reads it: `CAUSE` at [7:4], `FAULT` at [1], `DONE` at [0]. -/
def Status.word (st : Status) : Word :=
  0#24 ++ st.cause ++ 0#2 ++ BitVec.ofBool st.fault ++ BitVec.ofBool st.done

/-- R216: `STATUS` after `raise x`. -/
def Status.raised (x : Cause) : Status := { done := false, fault := true, cause := x.code }

/-- R185 step 6: `STATUS.DONE <- 1`. -/
def Status.completed (st : Status) : Status := { st with done := true }

/-- R212: `BLK_CNT < blockBytes(cmd)`. -/
abbrev Regs.inputShort (r : Regs) (i : Instr) : Prop := r.blkCnt.toNat < blockBytes i

/-- R213: `PITCH < 4 * pixelSize(cmd)`. -/
abbrev Regs.pitchTooSmall (r : Regs) (i : Instr) : Prop := r.pitch.toNat < minPitch i

/-- R214: `DST_BASE + DST_LEN > 2^AW` or `DST_LEN < 3*PITCH + 4*pixelSize(cmd)`, without wrap. -/
abbrev Regs.outOfBounds (c : Config) (r : Regs) (i : Instr) : Prop :=
  c.space < r.dstBase.toNat + r.dstLen.toNat ∨ r.dstLen.toNat < needLen i r.pitch.toNat

/-- R215: of the faults whose conditions hold for a decoded command, the one with the lowest
code. -/
def Regs.violation? (c : Config) (r : Regs) (i : Instr) : Option Cause :=
  if r.inputShort i then some .inputShort
  else if r.pitchTooSmall i then some .pitchFault
  else if r.outOfBounds c i then some .outputBounds
  else none

/-- R114: `four = (c0 > c1) or (opaque = 1)`, on the raw 16-bit words, unsigned. -/
def fourColour (c0 c1 : Nat) (forcedOpaque : Bool) : Bool := decide (c1 < c0) || forcedOpaque

/-- R153: `six = (E0 > E1)`, unsigned. -/
def sixStep (e0 e1 : Nat) : Bool := decide (e1 < e0)

end Sys2Proof.Machine
end

