-- ==== Sys2Proof/Machine/Memory.lean ====
section
/-! DEFINITION. `DST` as a list of cells in one canonical form (addresses strictly rising), the one
store the core has (R55, R174), and stores in sequence and in a race (R59, R60, R64). -/

namespace Sys2Proof.Machine

/-- The byte that has been stored at `a`, if anything has. -/
def Memory.read (m : Memory) (a : Nat) : Option Byte :=
  match m with
  | [] => none
  | (k, v) :: rest => if a = k then some v else Memory.read rest a

/-- R50: the value of `DST[a]`, which every address has: the byte stored there, and a free value where
nothing has been stored (log 5). -/
def Memory.byte (m : Memory) (a : Nat) : Byte :=
  match Memory.read m a with
  | some v => v
  | none => Config.dstBeforeStores a

/-- R174: `DST[a] <- v` and nothing else. -/
def Memory.write (m : Memory) (a : Nat) (v : Byte) : Memory :=
  match m with
  | [] => [(a, v)]
  | (k, u) :: rest =>
      if a < k then (a, v) :: (k, u) :: rest
      else if a = k then (a, v) :: rest
      else (k, u) :: Memory.write rest a v

/-- One byte store: an address (or an offset from `DST_BASE`) and the byte. -/
abbrev Store := Nat × Byte

/-- The stores of a list, the first first; a later store to an address wins (R59, R60). -/
def Memory.storeAll (m : Memory) : List Store → Memory
  | [] => m
  | (a, v) :: rest => Memory.storeAll (Memory.write m a v) rest

/-- The stores of a command that runs together with others: at an address they have stored to
(`taken`), which value stays is a free value, drawn per byte (R64, U4; log 10). -/
def Memory.storeRacing (m : Memory) (n : Nat) (taken : List Nat) : List Store → Memory
  | [] => m
  | (a, v) :: rest =>
      if a ∈ taken ∧ Config.raceKeepsEarlier n a = true then Memory.storeRacing m n taken rest
      else Memory.storeRacing (Memory.write m a v) n taken rest

/-- The canonical form: addresses strictly rising. -/
abbrev Memory.wf (m : Memory) : Prop := (m.map Prod.fst).Pairwise (· < ·)

/-- R50: every listed address exists. -/
abbrev Memory.within (m : Memory) (space : Nat) : Prop := ∀ cell ∈ m, cell.1 < space

end Sys2Proof.Machine
end

