-- ==== Sys2Proof/Machine/Ops.lean ====
section
/-! DEFINITION. The shared operations: raising a fault (R216) and the way out of it (R218, R240),
the execution of a decoded command (R185), and host accesses to registers (R33). -/

namespace Sys2Proof.Machine

/-! ## Faults -/

/-- R216: `raise x`: `DONE` 0, `FAULT` 1, `CAUSE` the code, nothing else. The core is halted then
(R218): there is no handler and no saved state. -/
def Regs.raise (r : Regs) (x : Cause) : Regs := { r with status := Status.raised x }

/-- R218: whether the core is halted. -/
abbrev Regs.halted (r : Regs) : Bool := r.status.fault

/-- R240: the reset event on the addressed instance (log 9), the only way out of the halt (R218).
`DST` is not touched; `BLK` takes the free values of a new draw (log 3). -/
def State.resetEvent (s : State) : State :=
  { s with regs := Regs.reset s.fresh, fresh := s.fresh + 1 }

/-! ## Executing a command -/

/-- What one command does: the instance's registers after it, and its stores to `DST` by absolute
address, in order. A fault stores nothing (R217). -/
structure CmdResult where
  regs : Regs
  stores : List Store
  deriving DecidableEq, Repr

/-- R51, R174: an offset counted from `DST_BASE` as an absolute address; it needs no wrap. -/
def Regs.absolute (r : Regs) (o : Store) : Store := (r.dstBase.toNat + o.1, o.2)

/-- R185 for a decoded command `i` with the stores `offsets` of its passes. Step 0: a halted core
ignores the write. Step 1: `CMD` takes the word. Steps 3 and 4: the checks, in R215's order. Step 5:
the stores. Step 6: `DONE`. -/
def Regs.execute (c : Config) (r : Regs) (i : Instr) (offsets : List Store) : CmdResult :=
  if r.halted then ⟨r, []⟩
  else
    match r.violation? c i with
    | some x => ⟨({ r with cmd := encode i } : Regs).raise x, []⟩
    | none =>
        ⟨{ r with cmd := encode i, status := r.status.completed }, offsets.map r.absolute⟩

/-- R185 steps 0 to 2 for a word that is no command word: stored all the same, `IllegalCommand`
raised (R24, R211). -/
def Regs.illegal (r : Regs) (w : Word) : Regs :=
  if r.halted then r else ({ r with cmd := w } : Regs).raise .illegalCommand

/-- A command's result as a change of the state: the addressed instance's registers and the stores
to the shared `DST`. -/
def State.commit (s : State) (res : CmdResult) : State :=
  { s with regs := res.regs, dst := Memory.storeAll s.dst res.stores }

/-- The write of an illegal word to `CMD` (R83, R211). -/
def State.illegalCommand (s : State) (w : Word) : State := { s with regs := s.regs.illegal w }

/-! ## Register accesses -/

/-- R33, R80: what a read of a register number returns. A number that names no register reads 0. -/
def Regs.read (r : Regs) (reg : Nat) : Word :=
  match reg with
  | 0x00 => r.cmd
  | 0x01 => r.status.word
  | 0x02 => r.dstBase
  | 0x03 => r.dstLen
  | 0x04 => r.pitch
  | 0x05 => r.blkCnt.setWidth 32
  | 0x08 => r.blkWord 0
  | 0x09 => r.blkWord 1
  | 0x0A => r.blkWord 2
  | 0x0B => r.blkWord 3
  | _ => 0

/-- R33, R80: a host write to a register other than `CMD`, whose write executes a command (R185)
and is not made here. Ignored while halted (R33(c)), to `STATUS`, and to a number that names no
register (R33(b)). -/
def Regs.write (c : Config) (r : Regs) (reg : Nat) (v : Word) : Regs :=
  if r.halted then r
  else
    match reg with
    | 0x02 => { r with dstBase := truncAw c v }
    | 0x03 => { r with dstLen := truncAw c v }
    | 0x04 => { r with pitch := truncAw c v }
    | 0x05 => { r with blkCnt := v.setWidth 5 }
    | 0x08 => r.withBlkWord 0 v
    | 0x09 => r.withBlkWord 1 v
    | 0x0A => r.withBlkWord 2 v
    | 0x0B => r.withBlkWord 3 v
    | _ => r

end Sys2Proof.Machine
end

