-- ==== Sys2Proof/Machine/PixelWriter.lean ====
section
/-! DEFINITION. The indexed pixel writer (43_pixel_writer.md): the offset of a channel byte and the
write set of a command. -/

namespace Sys2Proof.Machine

/-- R173: the offset of channel byte `k` of pixel `p`, in exact arithmetic. -/
def offset (pitch size p k : Nat) : Nat := row p * pitch + col p * size + k

/-- R170: a pass that stores one byte for each pixel, at channel offset `k` (R143, R157). -/
def bytePass (pitch size k : Nat) (value : Nat → Byte) : List Store :=
  pixels.map fun p => (offset pitch size p k, value p)

/-- R177: the write set of a command, as offsets from `DST_BASE`. -/
def writeSet (i : Instr) (pitch : Nat) : List Nat :=
  pixels.flatMap fun p => (List.range (pixelSize i)).map fun k => offset pitch (pixelSize i) p k

end Sys2Proof.Machine
end

