-- ==== Sys2Proof/Machine/ColorBlock.lean ====
section
/-! DEFINITION. The colour-palette reconstructor and the colour pass (40_color_block.md), and the
two commands that are a colour pass alone: `DCOLOR` (R187) and `DCOLORP` (R188). -/

namespace Sys2Proof.Machine

/-! ## The six fixed-point functions (R13), on sums of raw fields (R116) -/

def expand5 (v : Nat) : Nat := (v * 527 + 23) >>> 6
def expand6 (v : Nat) : Nat := (v * 259 + 33) >>> 6
def third5 (s : Nat) : Nat := (s * 351 + 61) >>> 7
def third6 (s : Nat) : Nat := (s * 2763 + 1039) >>> 11
def half5 (s : Nat) : Nat := (s * 1053 + 125) >>> 8
def half6 (s : Nat) : Nat := (s * 4145 + 1019) >>> 11

/-! ## The palette -/

/-- The raw fields of a reference colour word (R85, R112). -/
structure Raw565 where
  r : Nat
  g : Nat
  b : Nat
  deriving DecidableEq, Repr

/-- R85, R112: `R = c[15:11]`, `G = c[10:5]`, `B = c[4:0]`. -/
def unpack565 (c : Nat) : Raw565 := ⟨bits c 15 11, bits c 10 5, bits c 4 0⟩

/-- A decoded colour: the four bytes of a pixel or of a palette entry (R29). -/
structure Rgba where
  r : Byte
  g : Byte
  b : Byte
  a : Byte
  deriving DecidableEq, Repr

/-- R113: a reference colour expanded to 8 bits per channel, alpha 0xFF. -/
def expanded (x : Raw565) : Rgba :=
  ⟨byteOf (expand5 x.r), byteOf (expand6 x.g), byteOf (expand5 x.b), 0xFF⟩

/-- R115: the two-thirds mix `2·x + y`, alpha 0xFF. -/
def twoThirds (x y : Raw565) : Rgba :=
  ⟨byteOf (third5 (2 * x.r + y.r)), byteOf (third6 (2 * x.g + y.g)),
    byteOf (third5 (2 * x.b + y.b)), 0xFF⟩

/-- R117: the mix of two halves `x + y`, alpha 0xFF. -/
def halfMix (x y : Raw565) : Rgba :=
  ⟨byteOf (half5 (x.r + y.r)), byteOf (half6 (x.g + y.g)), byteOf (half5 (x.b + y.b)), 0xFF⟩

/-- R117: fully transparent black. -/
def transparentBlack : Rgba := ⟨0, 0, 0, 0⟩

/-- R113 to R117: the palette `P[0..3]` of the reference words `c0`, `c1`. -/
def colourPalette (c0 c1 : Nat) (forcedOpaque : Bool) : Vector Rgba 4 :=
  let x0 := unpack565 c0
  let x1 := unpack565 c1
  if fourColour c0 c1 forcedOpaque then
    #v[expanded x0, expanded x1, twoThirds x0 x1, twoThirds x1 x0]
  else
    #v[expanded x0, expanded x1, halfMix x0 x1, transparentBlack]

/-- R111, R84: `c0` of a colour block. -/
def colourWord0 (b : Block) : Nat := le16 b 0

/-- R111, R84: `c1` of a colour block. -/
def colourWord1 (b : Block) : Nat := le16 b 2

/-- R86, R118: the index of pixel `p`, `ci(p) = cidx[2p+1 : 2p]`. -/
def colourIndex (b : Block) (p : Nat) : Fin 4 := Fin.ofNat 4 (pixelField (le32 b 4) 2 p)

/-- R118: the palette entry pixel `p` selects. -/
def pixelColour (b : Block) (forcedOpaque : Bool) (p : Nat) : Rgba :=
  (colourPalette (colourWord0 b) (colourWord1 b) forcedOpaque).get (colourIndex b p)

/-- R119: the four stores of one pixel at offset `o`: R, G, B, A from the lowest address. -/
def rgbaStores (o : Nat) (e : Rgba) : List Store := [(o, e.r), (o + 1, e.g), (o + 2, e.b), (o + 3, e.a)]

/-- R120: `ColorPass(b, opaque)`. -/
def colorPass (b : Block) (forcedOpaque : Bool) (pitch : Nat) : List Store :=
  pixels.flatMap fun p => rgbaStores (offset pitch 4 p 0) (pixelColour b forcedOpaque p)

/-! ## The commands -/

/-- R187: `DCOLOR`, `ColorPass(BLK[0..8], 1)`. -/
def dcolorResult (c : Config) (r : Regs) : CmdResult :=
  r.execute c .dcolor (colorPass r.loHalf true r.pitch.toNat)

/-- R188: `DCOLORP`, `ColorPass(BLK[0..8], 0)`. -/
def dcolorpResult (c : Config) (r : Regs) : CmdResult :=
  r.execute c .dcolorp (colorPass r.loHalf false r.pitch.toNat)

/-- R187: a write of `DCOLOR` to `CMD` (R185). -/
def execDcolor (s : State) : Host.Outcome State Fault Refusal :=
  .next (s.commit (dcolorResult s.cfg s.regs))

/-- R188: a write of `DCOLORP` to `CMD` (R185). -/
def execDcolorp (s : State) : Host.Outcome State Fault Refusal :=
  .next (s.commit (dcolorpResult s.cfg s.regs))

end Sys2Proof.Machine
end

