-- ==== Sys2Proof/Machine/SharpAlpha.lean ====
section
/-! DEFINITION. The sharp-alpha ramper (41_sharp_alpha.md) and `DSHARP` (R189). -/

namespace Sys2Proof.Machine

/-- R87, R141: the 4-bit sample of pixel `p`, `sa(p) = S[4p+3 : 4p]` with `S = LE64(b, 0)`. -/
def sharpSample (b : Block) (p : Nat) : Nat := pixelField (le64 b) 4 p

/-- R142: the stored byte, `sa(p) * 17`. -/
def sharpValue (b : Block) (p : Nat) : Byte := byteOf (sharpSample b p * 17)

/-- R144: `SharpPass(b)`: pixel stride 4, channel offset 3 (R143). -/
def sharpPass (b : Block) (pitch : Nat) : List Store := bytePass pitch 4 3 (sharpValue b)

/-- R189: `DSHARP`, `ColorPass(BLK[8..16], 1)` and then `SharpPass(BLK[0..8])` (R193). -/
def dsharpResult (c : Config) (r : Regs) : CmdResult :=
  r.execute c .dsharp
    (colorPass r.hiHalf true r.pitch.toNat ++ sharpPass r.loHalf r.pitch.toNat)

/-- R189: a write of `DSHARP` to `CMD` (R185). -/
def execDsharp (s : State) : Host.Outcome State Fault Refusal :=
  .next (s.commit (dsharpResult s.cfg s.regs))

end Sys2Proof.Machine
end

