-- ==== Sys2Proof/Machine/SmoothAlpha.lean ====
section
/-! DEFINITION. The smooth-alpha interpolator (42_smooth_alpha.md) and the three commands that use
it: `DSMOOTH` (R190), `DMONO` (R191) and `DDUAL` (R192). -/

namespace Sys2Proof.Machine

/-- R154: entry `2 + k` of the six-step ramp, truncating. -/
def sixEntry (e0 e1 k : Nat) : Byte := byteOf (((6 - k) * e0 + (1 + k) * e1) / 7)

/-- R155: entry `2 + k` of the four-step ramp, truncating. -/
def fourEntry (e0 e1 k : Nat) : Byte := byteOf (((4 - k) * e0 + (1 + k) * e1) / 5)

/-- R152 to R155: the palette `A[0..7]` of two endpoints. -/
def alphaPalette (e0 e1 : Nat) : Vector Byte 8 :=
  if sixStep e0 e1 then
    #v[byteOf e0, byteOf e1, sixEntry e0 e1 0, sixEntry e0 e1 1, sixEntry e0 e1 2,
      sixEntry e0 e1 3, sixEntry e0 e1 4, sixEntry e0 e1 5]
  else
    #v[byteOf e0, byteOf e1, fourEntry e0 e1 0, fourEntry e0 e1 1, fourEntry e0 e1 2,
      fourEntry e0 e1 3, 0x00, 0xFF]

/-- R88, R151: `E0 = Q[7:0]` with `Q = LE64(b, 0)`. -/
def endpoint0 (b : Block) : Nat := bits (le64 b) 7 0

/-- R88, R151: `E1 = Q[15:8]`. -/
def endpoint1 (b : Block) : Nat := bits (le64 b) 15 8

/-- R88, R156: the index of pixel `p`, `ai(p) = Q[16+3p+2 : 16+3p]`. -/
def alphaIndex (b : Block) (p : Nat) : Fin 8 := Fin.ofNat 8 (pixelField (bits (le64 b) 63 16) 3 p)

/-- R156, R157: the byte pixel `p` selects, `A[ai(p)]`. -/
def smoothValue (b : Block) (p : Nat) : Byte :=
  (alphaPalette (endpoint0 b) (endpoint1 b)).get (alphaIndex b p)

/-- R158: `SmoothPass(b, stride, off)`. -/
def smoothPass (b : Block) (stride off pitch : Nat) : List Store :=
  bytePass pitch stride off (smoothValue b)

/-- R190: `DSMOOTH`, `ColorPass(BLK[8..16], 1)` and then `SmoothPass(BLK[0..8], 4, 3)` (R193). -/
def dsmoothResult (c : Config) (r : Regs) : CmdResult :=
  r.execute c .dsmooth
    (colorPass r.hiHalf true r.pitch.toNat ++ smoothPass r.loHalf 4 3 r.pitch.toNat)

/-- R191: `DMONO`, `SmoothPass(BLK[0..8], 1, 0)`. -/
def dmonoResult (c : Config) (r : Regs) : CmdResult :=
  r.execute c .dmono (smoothPass r.loHalf 1 0 r.pitch.toNat)

/-- R192: `DDUAL`, `SmoothPass(BLK[0..8], 2, 0)` and then `SmoothPass(BLK[8..16], 2, 1)`; the two
palettes are independent (R160). -/
def ddualResult (c : Config) (r : Regs) : CmdResult :=
  r.execute c .ddual
    (smoothPass r.loHalf 2 0 r.pitch.toNat ++ smoothPass r.hiHalf 2 1 r.pitch.toNat)

/-- R190: a write of `DSMOOTH` to `CMD` (R185). -/
def execDsmooth (s : State) : Host.Outcome State Fault Refusal :=
  .next (s.commit (dsmoothResult s.cfg s.regs))

/-- R191: a write of `DMONO` to `CMD` (R185). -/
def execDmono (s : State) : Host.Outcome State Fault Refusal :=
  .next (s.commit (dmonoResult s.cfg s.regs))

/-- R192: a write of `DDUAL` to `CMD` (R185). -/
def execDdual (s : State) : Host.Outcome State Fault Refusal :=
  .next (s.commit (ddualResult s.cfg s.regs))

end Sys2Proof.Machine
end

