-- ==== Sys2Proof/Machine/Dispatch.lean ====
section
/-! DEFINITION. The format dispatcher (44_dispatcher.md): one arm per command of R82. -/

namespace Sys2Proof.Machine

-- R185, R186: the command selects the recipe that runs.
def exec (i : Instr) (s : State) : Host.Outcome State Fault Refusal :=
  match i with
  | .dcolor => Sys2Proof.Machine.execDcolor s
  | .dcolorp => Sys2Proof.Machine.execDcolorp s
  | .dsharp => Sys2Proof.Machine.execDsharp s
  | .dsmooth => Sys2Proof.Machine.execDsmooth s
  | .dmono => Sys2Proof.Machine.execDmono s
  | .ddual => Sys2Proof.Machine.execDdual s

end Sys2Proof.Machine
end

