-- ==== Sys2Proof/Machine/Cores.lean ====
section
/-! DEFINITION. Several core instances on one `DST` (R64, R224): which instance the host addresses,
and commands that run together on different instances. -/

namespace Sys2Proof.Machine

/-- `NINST` (R7). -/
def State.ninst (s : State) : Nat := 1 + s.others.length

/-- The registers of an instance: 0 is the addressed one, `k + 1` is number `k` of the others. -/
def State.core? (s : State) (k : Nat) : Option Regs :=
  match k with
  | 0 => some s.regs
  | k + 1 => s.others[k]?

/-- The state with the registers of instance `k` replaced; the others keep theirs (R224). -/
def State.setCore (s : State) (k : Nat) (r : Regs) : State :=
  match k with
  | 0 => { s with regs := r }
  | k + 1 => { s with others := s.others.set k r }

/-- The host turns to number `k` of the others (log 2): it and the addressed one change places. -/
def State.select (s : State) (k : Nat) : Host.Outcome State Fault Refusal :=
  match s.others[k]? with
  | some r => .next { s with regs := r, others := s.others.set k s.regs }
  | none => .refused .noSuchCore

/-- What a decoded command does to the registers of an instance and to `DST` (R186). -/
def commandResult (i : Instr) (c : Config) (r : Regs) : CmdResult :=
  match i with
  | .dcolor => dcolorResult c r
  | .dcolorp => dcolorpResult c r
  | .dsharp => dsharpResult c r
  | .dsmooth => dsmoothResult c r
  | .dmono => dmonoResult c r
  | .ddual => ddualResult c r

/-- R185 for any word: `Execute(w)` on the registers of one instance. -/
def wordResult (w : Word) (c : Config) (r : Regs) : CmdResult :=
  match decode w with
  | .ok i => commandResult i c r
  | .error _ => ⟨r.illegal w, []⟩

/-- One command of a group that runs together: its instance's registers change by it alone (R224);
at an address an earlier one of the group has stored to (`taken`), which value stays is free (R64,
U4; log 10). -/
def State.commitRacing (s : State) (taken : List Nat) (k : Nat) (res : CmdResult) : State :=
  { s.setCore k res.regs with
      dst := Memory.storeRacing s.dst s.fresh taken res.stores
      fresh := s.fresh + 1 }

/-- The commands of a group that runs together, one after the other. -/
def State.runTogether (s : State) (taken : List Nat) : List (Nat × Word) → State
  | [] => s
  | (k, w) :: rest =>
      match s.core? k with
      | none => s.runTogether taken rest
      | some r =>
          let res := wordResult w s.cfg r
          (s.commitRacing taken k res).runTogether (taken ++ res.stores.map Prod.fst) rest

/-- `CMD` is written on several instances so that the commands run together (R64). The instances
must exist (R7) and be different: an instance runs one command at a time (R56; log 11). -/
def State.together (s : State) (cmds : List (Nat × Word)) : Host.Outcome State Fault Refusal :=
  if cmds.all (fun kw => decide (kw.1 < s.ninst)) then
    if (cmds.map Prod.fst).Nodup then .next (s.runTogether [] cmds)
    else .refused .coreNamedTwice
  else .refused .noSuchCore

end Sys2Proof.Machine
end

