-- ==== Sys2Proof/Machine/HostAccess.lean ====
section
/-! DEFINITION. What a host access other than a write of `CMD` does (R33, R91, R240). -/

namespace Sys2Proof.Machine

/-- The host's next access is taken off its list. -/
def State.popHost (s : State) : State := { s with host := s.host.tail }

/-- No access is pending: nothing happens; the core never acts on its own (R27; log 6). -/
def State.idle (s : State) : State := s

/-- A host read (R33(a)): the value goes to the host and nothing else changes. -/
def State.hostRead (s : State) (reg : Nat) : State := { s with rdata := s.regs.read reg }

/-- A host write to a register other than `CMD` (R33). -/
def State.hostWrite (s : State) (reg : Nat) (v : Word) : State :=
  { s with regs := s.regs.write s.cfg reg v }

/-- The bytes as stores to consecutive addresses from `a` on. -/
def consecutive (a : Nat) : List Byte → List Store
  | [] => []
  | v :: rest => (a, v) :: consecutive (a + 1) rest

/-- The host stores to its own memory (R32(b), R91); all addresses must exist (R50; log 12). -/
def State.hostStore (s : State) (a : Nat) (bytes : List Byte) : Host.Outcome State Fault Refusal :=
  if a + bytes.length ≤ s.cfg.space then
    .next { s with dst := Memory.storeAll s.dst (consecutive a bytes) }
  else .fault .dstNoSuchAddress

/-- The host reads a byte of its own memory (R32(b), R50, R61; log 12). -/
def State.hostLoad (s : State) (a : Nat) : Host.Outcome State Fault Refusal :=
  if a < s.cfg.space then .next { s with rdata := (Memory.byte s.dst a).setWidth 32 }
  else .fault .dstNoSuchAddress

/-- A host access. A write of `CMD` is `step`'s: it runs a command (R185). -/
def State.access (s : State) (op : HostOp) : Host.Outcome State Fault Refusal :=
  match op with
  | .wr reg v => .next (s.hostWrite reg v)
  | .rd reg => .next (s.hostRead reg)
  | .reset => .next s.resetEvent
  | .mem a bytes => s.hostStore a bytes
  | .load a => s.hostLoad a
  | .select k => s.select k
  | .together cmds => s.together cmds

end Sys2Proof.Machine
end

