-- ==== Sys2Proof/Machine/Step.lean ====
section
/-! DEFINITION. One step: the host's next access (R33(d): accesses are totally ordered). A write of
`CMD` decodes its word and runs the command (R185). -/

namespace Sys2Proof.Machine

/-- One host access, or nothing when none is pending (log 6). -/
def step (s : State) : Host.Outcome State Fault Refusal :=
  match s.host with
  | [] => .next s.idle
  | op :: _ =>
      match op.command? with
      | some w =>
          match decode w with
          | .ok i => exec i s.popHost
          | .error _ => .next (s.popHost.illegalCommand w)
      | none => s.popHost.access op

/-- The state whose next host access is `WR CMD, w`: the core has no program counter and no
instruction memory (R27), a command comes from the host (log 6). `w` is numbered as
`decodeTableWord` numbers it. -/
def State.withFetchWord (s : State) (nbits w : Nat) : State :=
  { s with host := .wr regCmd (BitVec.ofNat 32 (w % 2 ^ nbits)) :: s.host }

end Sys2Proof.Machine
end

