-- ==== Sys2Proof/Machine/Pseudo.lean ====
section
/-! DEFINITION. The expansions of the pseudo-instructions (R92). -/

namespace Sys2Proof.Machine

/-- The `WR BLKWk` lines of `BLK` (R92), from word `k` on; a missing byte is taken as 0. -/
def blkLines (k : Nat) : List Byte → List HostOp
  | [] => []
  | [a] => [.wr (regBlkW0 + k) (packWord a 0 0 0)]
  | [a, b] => [.wr (regBlkW0 + k) (packWord a b 0 0)]
  | [a, b, c] => [.wr (regBlkW0 + k) (packWord a b c 0)]
  | a :: b :: c :: d :: rest => .wr (regBlkW0 + k) (packWord a b c d) :: blkLines (k + 1) rest

/-- The expansions of R92. -/
def Pseudo.expand : Pseudo → List HostOp
  | .blk bytes => blkLines 0 bytes ++ [.wr regBlkCnt (BitVec.ofNat 32 bytes.length)]
  | .dst base len pitch => [.wr regDstBase base, .wr regDstLen len, .wr regPitch pitch]
  | .command i => [.wr regCmd (encode i)]
  | .wait => [.rd regStatus]

end Sys2Proof.Machine
end

