-- ==== Sys2Proof/Safety.lean ====
section
/-! DEFINITION. What is true of every state a run can reach, and what ends a run well (R25, R210,
R246). -/

namespace Sys2Proof.Machine

/-- R210, R215: `STATUS` and the frozen registers agree: a fault's cause is the first of R215 that
holds of the registers as they stand, and while there is no fault `CAUSE` is 0, and `DONE` is set
only when `CMD` holds the word of a command (R25). -/
def Regs.recordsTruly (c : Config) (r : Regs) : Prop :=
  if r.status.fault then
    r.status.done = false ∧
      match decode r.cmd with
      | .error _ => r.status.cause = Cause.code .illegalCommand
      | .ok i => ∃ x, r.violation? c i = some x ∧ r.status.cause = x.code
  else r.status.cause = 0 ∧ (r.status.done = true → ∃ i, r.cmd = encode i)

/-- R26: the three region registers are `AW` bits wide. -/
def Regs.fits (c : Config) (r : Regs) : Prop :=
  r.dstBase.toNat < c.space ∧ r.dstLen.toNat < c.space ∧ r.pitch.toNat < c.space

/-- What every reachable state of one instance satisfies. -/
def Regs.Inv (c : Config) (r : Regs) : Prop := r.fits c ∧ r.recordsTruly c

/-- What every reachable state satisfies: a legal build (R7), every instance in order, `DST` in its
canonical form and inside its address space (R50). -/
def State.Inv (s : State) : Prop :=
  s.cfg.legal = true ∧ s.regs.Inv s.cfg ∧ (∀ r ∈ s.others, r.Inv s.cfg) ∧
    Memory.wf s.dst ∧ Memory.within s.dst s.cfg.space

/-- R246: the run of instance `k` has ended well: no write of `CMD` is left and its `STATUS` =
0x00000001. Other accesses may be left. R246 speaks of one core; that with several instances each has
its own end, and that a pending write of any instance's `CMD` counts, is the model's choice (DESIGN
CHOICE, safe, log 16). `k` is the instance's place in this state, 0 the addressed one. -/
def State.endedWell (s : State) (k : Nat) : Prop :=
  (∀ op ∈ s.host, op.writesCmd = false) ∧ ∃ r, s.core? k = some r ∧ r.status.word = 0x00000001

/-- R246, R218: the run of instance `k` has ended in a fault (several instances: log 16). -/
def State.endedInFault (s : State) (k : Nat) : Prop :=
  ∃ r, s.core? k = some r ∧ r.status.fault = true

/-- R174, R214, R242: when command `i` may run and store its tile: not halted, enough block bytes,
pitch, and a region inside the address space that holds the tile. -/
def Regs.ready (c : Config) (r : Regs) (i : Instr) : Prop :=
  r.status.fault = false ∧ blockBytes i ≤ r.blkCnt.toNat ∧ 4 * pixelSize i ≤ r.pitch.toNat ∧
    r.dstBase.toNat + r.dstLen.toNat ≤ 2 ^ c.aw ∧
    3 * r.pitch.toNat + 4 * pixelSize i ≤ r.dstLen.toNat

end Sys2Proof.Machine
end

