-- ==== Sys2Proof/Certificates/Slice0/Obligations.lean ====
section
/-! DEFINITION. The statements for the provers. Each says which rule of spec/ it formalises. -/

open Sys2Proof Sys2Proof.Machine

namespace Sys2Proof.Claims

/-- `s` after `raise` with cause code `code` on the write of the word `w` to `CMD` (R216): `CMD` and
`STATUS` have changed and nothing else. -/
def raised (s : State) (w : Word) (code : BitVec 4) : State :=
  { s with regs := { s.regs with
      cmd := w, status := { done := false, fault := true, cause := code } } }

/-- `t` is `s` after a completed command with word `w`, but for `DST`: `CMD` holds the word, `DONE`
is set, and every other register, flag and field is as before. -/
def Completed (s t : State) (w : Word) : Prop :=
  t = { s with
    regs := { s.regs with cmd := w, status := { s.regs.status with done := true } }
    dst := t.dst }

/-- Every byte of `DST` outside the first `4 * size` bytes of the tile's four rows is as before
(R177, R178). -/
def OutsideTileUnchanged (s t : State) (size : Nat) : Prop :=
  ∀ a, (∀ r < 4, ∀ b < 4 * size, a ≠ s.regs.dstBase.toNat + (r * s.regs.pitch.toNat + b)) →
    Memory.read t.dst a = Memory.read s.dst a

/-- The address of byte `k` of the pixel in row `r` and column `c` (R173). -/
def pixelAt (s : State) (size r c k : Nat) : Nat :=
  s.regs.dstBase.toNat + (r * s.regs.pitch.toNat + c * size + k)

/-- The template of R187 to R192 for a command on a core that is not halted: `bytes` block bytes
needed, pixel size `size`, and what the tile holds after completion. The three faults in R215's
order, and completion when none of their conditions holds. -/
def CommandRule (i : Instr) (w : Word) (bytes size : Nat) (tile : State → State → Prop) : Prop :=
  ∀ s : State, s.regs.status.fault = false →
    (s.regs.blkCnt.toNat < bytes → exec i s = .next (raised s w 2)) ∧
    (bytes ≤ s.regs.blkCnt.toNat → s.regs.pitch.toNat < 4 * size →
      exec i s = .next (raised s w 3)) ∧
    (bytes ≤ s.regs.blkCnt.toNat → 4 * size ≤ s.regs.pitch.toNat →
      (2 ^ s.cfg.aw < s.regs.dstBase.toNat + s.regs.dstLen.toNat ∨
        s.regs.dstLen.toNat < 3 * s.regs.pitch.toNat + 4 * size) →
      exec i s = .next (raised s w 4)) ∧
    (bytes ≤ s.regs.blkCnt.toNat → 4 * size ≤ s.regs.pitch.toNat →
      s.regs.dstBase.toNat + s.regs.dstLen.toNat ≤ 2 ^ s.cfg.aw →
      3 * s.regs.pitch.toNat + 4 * size ≤ s.regs.dstLen.toNat →
      ∃ t, exec i s = .next t ∧ Completed s t w ∧ OutsideTileUnchanged s t size ∧ tile s t)

/-- The state with other bytes in `BLK`. -/
def withBlk (s : State) (blk : Vector Byte 16) : State :=
  { s with regs := { s.regs with blk := blk } }

/-- The state with another access in front of the host's list. -/
def hostNext (s : State) (op : HostOp) : State := { s with host := op :: s.host }

end Sys2Proof.Claims

open Sys2Proof.Claims

/-! ## Encoding -/

/-- R82: each of the six command words decodes to its command. -/
def Obligations.SixCommandWordsDecode : Prop :=
  decode 0x00000000 = .ok .dcolor ∧ decode 0x00000008 = .ok .dcolorp ∧
    decode 0x00000001 = .ok .dsharp ∧ decode 0x00000002 = .ok .dsmooth ∧
    decode 0x00000003 = .ok .dmono ∧ decode 0x00000004 = .ok .ddual

/-- R82: decoding and encoding agree in both directions: a word decodes to a command exactly when it
is that command's word, all 32 bits compared. -/
def Obligations.DecodeAcceptsExactlyTheEncodedWord : Prop :=
  ∀ (w : Word) (i : Instr), decode w = .ok i ↔ w = encode i

/-- R83: the illegal words are exactly those with a 1 in bits [31:4], with `FMT` 5 to 7, or with
`PT` = 1 and `FMT` 1 to 4. -/
def Obligations.IllegalWordsAreExactlyTheUnassigned : Prop :=
  ∀ w : Word, (∃ e, decode w = .error e) ↔
    (16 ≤ w.toNat ∨ (5 ≤ w.toNat % 8 ∧ w.toNat % 8 ≤ 7) ∨
      (w.getLsbD 3 = true ∧ 1 ≤ w.toNat % 8 ∧ w.toNat % 8 ≤ 4))

/-! ## The step -/

/-- R185: a host write of a word to `CMD`, the next of the host's accesses (log 6), is one step. On a
halted core it is ignored; a command word runs the command, on the state with the access taken off
the host's list; any other word raises `IllegalCommand`. -/
def Obligations.StepRunsTheDecodedCommand : Prop :=
  ∀ (s : State) (w : Word) (rest : List HostOp), s.host = .wr 0 w :: rest →
    (s.regs.status.fault = true → step s = .next { s with host := rest }) ∧
    (∀ i, decode w = .ok i → step s = exec i { s with host := rest }) ∧
    (∀ e, s.regs.status.fault = false → decode w = .error e →
      step s = .next (raised { s with host := rest } w 1))

/-- R211: a word that is none of the six raises `IllegalCommand`: `CMD` keeps the word, cause 1,
nothing else changes. -/
def Obligations.OtherWordsRaiseIllegalCommand : Prop :=
  ∀ (s : State) (w : Word), s.regs.status.fault = false →
    w ∉ ([0x00000000, 0x00000001, 0x00000002, 0x00000003, 0x00000004, 0x00000008] : List Word) →
    step (hostNext s (.wr 0 w)) = .next (raised s w 1)

/-- R218: while `FAULT` = 1 a write of any register, `CMD` included, is ignored, and reads work; a
reset clears `FAULT`; no other access (but the host's turning to another instance, log 2) changes a
register, so `FAULT` and `CAUSE` stay. -/
def Obligations.HaltedUntilReset : Prop :=
  ∀ s : State, s.regs.status.fault = true →
    (∀ (reg : Nat) (v : Word), step (hostNext s (.wr reg v)) = .next s) ∧
    (∀ reg : Nat, step (hostNext s (.rd reg)) = .next { s with rdata := s.regs.read reg }) ∧
    (∃ t, step (hostNext s .reset) = .next t ∧ t.regs.status.fault = false) ∧
    (∀ (op : HostOp) (t : State), op ≠ .reset → (∀ k, op ≠ .select k) →
      step (hostNext s op) = .next t → t.regs = s.regs)

/-! ## The six commands -/

/-- R187: `DCOLOR`. Every pixel gets its entry of the four-colour palette of `BLK[0..8]`, R, G, B
from the lowest address, and alpha 0xFF. -/
def Obligations.DcolorDecodesAnOpaqueTile : Prop :=
  CommandRule .dcolor 0x00000000 8 4 fun s t => ∀ r < 4, ∀ c < 4,
    let e := pixelColour s.regs.loHalf true (4 * r + c)
    Memory.read t.dst (pixelAt s 4 r c 0) = some e.r ∧
      Memory.read t.dst (pixelAt s 4 r c 1) = some e.g ∧
      Memory.read t.dst (pixelAt s 4 r c 2) = some e.b ∧
      Memory.read t.dst (pixelAt s 4 r c 3) = some 0xFF

/-- R188: `DCOLORP`. As `DCOLOR` with the forced-opaque flag clear; when `c0 > c1` its bytes are
those of `DCOLOR`; when `c0 ≤ c1` a pixel with index 3 gets four zero bytes. -/
def Obligations.DcolorpDecodesAPunchThroughTile : Prop :=
  CommandRule .dcolorp 0x00000008 8 4 fun s t => ∀ r < 4, ∀ c < 4,
    let b := s.regs.loHalf
    let e := pixelColour b false (4 * r + c)
    (Memory.read t.dst (pixelAt s 4 r c 0) = some e.r ∧
      Memory.read t.dst (pixelAt s 4 r c 1) = some e.g ∧
      Memory.read t.dst (pixelAt s 4 r c 2) = some e.b ∧
      Memory.read t.dst (pixelAt s 4 r c 3) = some e.a) ∧
    (colourWord1 b < colourWord0 b → e = pixelColour b true (4 * r + c)) ∧
    (colourWord0 b ≤ colourWord1 b → (colourIndex b (4 * r + c)).val = 3 →
      ∀ k < 4, Memory.read t.dst (pixelAt s 4 r c k) = some 0x00)

/-- R189: `DSHARP`. Bytes 0 to 2 of a pixel are R, G, B of the four-colour palette of `BLK[8..16]`,
byte 3 is 17 times the pixel's 4-bit sample of `BLK[0..8]`. -/
def Obligations.DsharpDecodesColourAndSharpAlpha : Prop :=
  CommandRule .dsharp 0x00000001 16 4 fun s t => ∀ r < 4, ∀ c < 4,
    let e := pixelColour s.regs.hiHalf true (4 * r + c)
    Memory.read t.dst (pixelAt s 4 r c 0) = some e.r ∧
      Memory.read t.dst (pixelAt s 4 r c 1) = some e.g ∧
      Memory.read t.dst (pixelAt s 4 r c 2) = some e.b ∧
      Memory.read t.dst (pixelAt s 4 r c 3) =
        some (BitVec.ofNat 8 (17 * sharpSample s.regs.loHalf (4 * r + c)))

/-- R190: `DSMOOTH`. Bytes 0 to 2 as in `DSHARP`, byte 3 is the pixel's entry of the smooth palette of
`BLK[0..8]`. -/
def Obligations.DsmoothDecodesColourAndSmoothAlpha : Prop :=
  CommandRule .dsmooth 0x00000002 16 4 fun s t => ∀ r < 4, ∀ c < 4,
    let e := pixelColour s.regs.hiHalf true (4 * r + c)
    let b := s.regs.loHalf
    Memory.read t.dst (pixelAt s 4 r c 0) = some e.r ∧
      Memory.read t.dst (pixelAt s 4 r c 1) = some e.g ∧
      Memory.read t.dst (pixelAt s 4 r c 2) = some e.b ∧
      Memory.read t.dst (pixelAt s 4 r c 3) =
        some ((alphaPalette b[0].toNat b[1].toNat).get (alphaIndex b (4 * r + c)))

/-- R191: `DMONO`. The one byte of a pixel is its entry of the smooth palette of `BLK[0..8]`. -/
def Obligations.DmonoDecodesOneSmoothChannel : Prop :=
  CommandRule .dmono 0x00000003 8 1 fun s t => ∀ r < 4, ∀ c < 4,
    let b := s.regs.loHalf
    Memory.read t.dst (pixelAt s 1 r c 0) =
      some ((alphaPalette b[0].toNat b[1].toNat).get (alphaIndex b (4 * r + c)))

/-- R192: `DDUAL`. Byte 0 of a pixel is its entry of the smooth palette of `BLK[0..8]`, byte 1 its
entry of that of `BLK[8..16]`. -/
def Obligations.DdualDecodesTwoSmoothChannels : Prop :=
  CommandRule .ddual 0x00000004 16 2 fun s t => ∀ r < 4, ∀ c < 4,
    let b := s.regs.loHalf
    let d := s.regs.hiHalf
    Memory.read t.dst (pixelAt s 2 r c 0) =
        some ((alphaPalette b[0].toNat b[1].toNat).get (alphaIndex b (4 * r + c))) ∧
      Memory.read t.dst (pixelAt s 2 r c 1) =
        some ((alphaPalette d[0].toNat d[1].toNat).get (alphaIndex d (4 * r + c)))

/-! ## What every command keeps -/

/-- R22, R23, R26, R63: whatever a command does, it changes no block register, not `BLK_CNT`, not
the region registers, not another instance, not the build, and not the host's side. -/
def Obligations.CommandsLeaveTheirOperandsAlone : Prop :=
  ∀ (i : Instr) (s : State), ∃ t, exec i s = .next t ∧
    t.regs.blk = s.regs.blk ∧ t.regs.blkCnt = s.regs.blkCnt ∧
    t.regs.dstBase = s.regs.dstBase ∧ t.regs.dstLen = s.regs.dstLen ∧
    t.regs.pitch = s.regs.pitch ∧ t.cfg = s.cfg ∧ t.others = s.others ∧ t.host = s.host ∧
    t.rdata = s.rdata ∧ t.fresh = s.fresh

/-- R23: no command writes `BLK` or `BLK_CNT`, and the result of a command that needs 8 bytes does not
depend on `BLK[8..16]`: changing them changes nothing else. -/
def Obligations.EightByteCommandsIgnoreTheUpperHalf : Prop :=
  (∀ (i : Instr) (s t : State), exec i s = .next t →
    t.regs.blk = s.regs.blk ∧ t.regs.blkCnt = s.regs.blkCnt) ∧
  ∀ (i : Instr) (s t : State) (blk : Vector Byte 16), i ∈ [Instr.dcolor, .dcolorp, .dmono] →
    (∀ j (h : j < 8), blk[j] = s.regs.blk[j]) → exec i s = .next t →
    exec i (withBlk s blk) = .next (withBlk t blk)

/-- R221: whether a write of `CMD` faults, and with which cause, depends on the word written and on
`BLK_CNT`, `DST_BASE`, `DST_LEN` and `PITCH` alone, on two cores of one address width of which neither
or both are halted: on nothing else of the two states, so never on `BLK`. -/
def Obligations.BlockContentsNeverDecideAFault : Prop :=
  ∀ (w : Word) (s s' : State), s'.cfg = s.cfg → s'.regs.status.fault = s.regs.status.fault →
    s'.regs.blkCnt = s.regs.blkCnt → s'.regs.dstBase = s.regs.dstBase →
    s'.regs.dstLen = s.regs.dstLen → s'.regs.pitch = s.regs.pitch →
    ∃ t t', step (hostNext s (.wr 0 w)) = .next t ∧ step (hostNext s' (.wr 0 w)) = .next t' ∧
      t'.regs.status.fault = t.regs.status.fault ∧
      (s.regs.status.fault = false → t.regs.status.fault = true →
        t'.regs.status = t.regs.status) ∧
      (s'.regs.status = s.regs.status → t'.regs.status = t.regs.status)

/-- R217: a write of `CMD` that leaves `FAULT` set stores nothing, whichever the fault: the state is
the old one but for `CMD` and `STATUS`. -/
def Obligations.FaultingCommandStoresNothing : Prop :=
  ∀ (w : Word) (s t : State), step (hostNext s (.wr 0 w)) = .next t →
    t.regs.status.fault = true →
    t = { s with regs := { s.regs with cmd := t.regs.cmd, status := t.regs.status } } ∧
      t.regs.status.done = (s.regs.status.fault && s.regs.status.done)

/-- R185, R243: on a core that is not halted, `DONE` is set after a command exactly when its block
bytes, pitch and region are what it needs, and `FAULT` exactly otherwise. -/
def Obligations.DoneExactlyWhenTheContractHolds : Prop :=
  ∀ (i : Instr) (s t : State), s.regs.status.fault = false → exec i s = .next t →
    (t.regs.status.done = true ↔
      blockBytes i ≤ s.regs.blkCnt.toNat ∧ 4 * pixelSize i ≤ s.regs.pitch.toNat ∧
        s.regs.dstBase.toNat + s.regs.dstLen.toNat ≤ 2 ^ s.cfg.aw ∧
        3 * s.regs.pitch.toNat + 4 * pixelSize i ≤ s.regs.dstLen.toNat) ∧
    (t.regs.status.fault = true ↔ t.regs.status.done = false)

/-- R214, R51: no command changes a byte outside the region, under any condition. -/
def Obligations.NoStoreOutsideTheRegion : Prop :=
  ∀ (i : Instr) (s t : State) (a : Nat), exec i s = .next t →
    a < s.regs.dstBase.toNat ∨ s.regs.dstBase.toNat + s.regs.dstLen.toNat ≤ a →
    Memory.read t.dst a = Memory.read s.dst a

/-- R195: the bytes a completed command stores, one at every offset of its write set, are a function
of the command, the block bytes it reads and `PITCH` alone: two states that agree on these, whatever
their `DST`, region, other registers and address width, get the same bytes. -/
def Obligations.StoredBytesDependOnCommandBlockAndPitchAlone : Prop :=
  ∀ (i : Instr) (s s' : State), s.regs.ready s.cfg i → s'.regs.ready s'.cfg i →
    (∀ j (h : j < 16), j < blockBytes i → s'.regs.blk[j] = s.regs.blk[j]) →
    s'.regs.pitch = s.regs.pitch →
    ∃ t t', exec i s = .next t ∧ exec i s' = .next t' ∧
      ∀ o ∈ writeSet i s.regs.pitch.toNat, ∃ v,
        Memory.read t.dst (s.regs.dstBase.toNat + o) = some v ∧
        Memory.read t'.dst (s'.regs.dstBase.toNat + o) = some v

/-- R57: running the same command again with unchanged registers changes nothing, in every state
that meets the model's invariant. -/
def Obligations.RunningACommandAgainChangesNothing : Prop :=
  ∀ (i : Instr) (s t : State), s.Inv → exec i s = .next t → exec i t = .next t

/-- R61: a byte of the tile of a completed command is what the host's next read of that address
returns. -/
def Obligations.HostSeesEveryStoreAtOnce : Prop :=
  ∀ (i : Instr) (s : State), s.regs.ready s.cfg i → ∃ t, exec i s = .next t ∧
    t.regs.status.done = true ∧
    ∀ o ∈ writeSet i s.regs.pitch.toNat, ∃ v,
      Memory.read t.dst (s.regs.dstBase.toNat + o) = some v ∧
      step (hostNext t (.load (s.regs.dstBase.toNat + o))) =
        .next { t with rdata := v.setWidth 32 }

/-! ## The pixel writer -/

/-- R175: with the minimum pitch met, the offset of a channel byte is injective on the pairs of a
pixel and a channel. -/
def Obligations.RowsOfATileDoNotOverlap : Prop :=
  ∀ pitch size p q j k : Nat, 4 * size ≤ pitch → p < 16 → q < 16 → j < size → k < size →
    offset pitch size p j = offset pitch size q k → p = q ∧ j = k

/-- R177: the write set is the first `4 * pixelSize` bytes of each of the four rows; with the minimum
pitch met it has 64, 16 or 32 members. -/
def Obligations.WriteSetIsTheTilesFourRows : Prop :=
  ∀ (i : Instr) (pitch : Nat),
    (∀ o, o ∈ writeSet i pitch ↔ ∃ r < 4, ∃ b < 4 * pixelSize i, o = r * pitch + b) ∧
    (4 * pixelSize i ≤ pitch → (writeSet i pitch).Nodup ∧
      (writeSet i pitch).length = 16 * pixelSize i)

/-- R172: taking a pixel's bits out of the whole field is the same as shifting the field right by `w`
once for each earlier pixel and taking the low `w` bits. -/
def Obligations.IndexFieldIsAShiftingAccumulator : Prop :=
  ∀ f w p : Nat, 0 < w → pixelField f w p = ((fun x => x >>> w)^[p] f) % 2 ^ w

/-- R86: the colour index of pixel `p` is two bits of byte `4 + p/4` of the block, the pixel in
column 0 in the low bits. -/
def Obligations.ColourIndexIsLeastSignificantFirst : Prop :=
  ∀ (b : Block) (p : Nat) (h : p < 16),
    (colourIndex b p).val = (b[4 + p / 4]'(by omega)).toNat / 4 ^ (p % 4) % 4

/-- R87, R142: the sample of pixel `p` is in byte `p/2`, the low nibble when `p` is even, and the
stored byte is exactly 17 times it. -/
def Obligations.SharpAlphaIsTheNibbleTimesSeventeen : Prop :=
  ∀ (b : Block) (p : Nat) (h : p < 16),
    sharpSample b p = (b[p / 2]'(by omega)).toNat / 16 ^ (p % 2) % 16 ∧
      (sharpValue b p).toNat = 17 * sharpSample b p

/-- R88: the endpoints are bytes 0 and 1; pixels 0 to 7 have their 3-bit indices in the 24 bits of
bytes 2 to 4, pixels 8 to 15 in those of bytes 5 to 7, least significant first. -/
def Obligations.SmoothAlphaFieldsAreLeastSignificantFirst : Prop :=
  ∀ b : Block, endpoint0 b = b[0].toNat ∧ endpoint1 b = b[1].toNat ∧
    (∀ p < 8, (alphaIndex b p).val =
      (b[2].toNat + 2 ^ 8 * b[3].toNat + 2 ^ 16 * b[4].toNat) / 8 ^ p % 8) ∧
    (∀ p < 8, (alphaIndex b (8 + p)).val =
      (b[5].toNat + 2 ^ 8 * b[6].toNat + 2 ^ 16 * b[7].toNat) / 8 ^ p % 8)

/-! ## The palettes -/

/-- R113: palette entries 0 and 1 are the two reference colours expanded to 8 bits per channel, as
numbers, with alpha 0xFF, in both modes. -/
def Obligations.ReferenceColourEntries : Prop :=
  ∀ (c0 c1 : Nat) (o : Bool), c0 < 65536 → c1 < 65536 →
    let P := colourPalette c0 c1 o
    let r0 := c0 / 2048; let g0 := c0 / 32 % 64; let b0 := c0 % 32
    let r1 := c1 / 2048; let g1 := c1 / 32 % 64; let b1 := c1 % 32
    (P[0].r.toNat = (r0 * 527 + 23) / 64 ∧ P[0].g.toNat = (g0 * 259 + 33) / 64 ∧
      P[0].b.toNat = (b0 * 527 + 23) / 64 ∧ P[0].a = 0xFF) ∧
    (P[1].r.toNat = (r1 * 527 + 23) / 64 ∧ P[1].g.toNat = (g1 * 259 + 33) / 64 ∧
      P[1].b.toNat = (b1 * 527 + 23) / 64 ∧ P[1].a = 0xFF)

/-- R115: entries 2 and 3 in four-colour mode (R114), as numbers: no byte is ever cut off. -/
def Obligations.FourColourPaletteValues : Prop :=
  ∀ (c0 c1 : Nat) (o : Bool), c0 < 65536 → c1 < 65536 → (c1 < c0 ∨ o = true) →
    let P := colourPalette c0 c1 o
    let r0 := c0 / 2048; let g0 := c0 / 32 % 64; let b0 := c0 % 32
    let r1 := c1 / 2048; let g1 := c1 / 32 % 64; let b1 := c1 % 32
    (P[2].r.toNat = ((2 * r0 + r1) * 351 + 61) / 128 ∧
      P[2].g.toNat = ((2 * g0 + g1) * 2763 + 1039) / 2048 ∧
      P[2].b.toNat = ((2 * b0 + b1) * 351 + 61) / 128 ∧ P[2].a = 0xFF) ∧
    (P[3].r.toNat = ((r0 + 2 * r1) * 351 + 61) / 128 ∧
      P[3].g.toNat = ((g0 + 2 * g1) * 2763 + 1039) / 2048 ∧
      P[3].b.toNat = ((b0 + 2 * b1) * 351 + 61) / 128 ∧ P[3].a = 0xFF)

/-- R117: entries 2 and 3 in three-colour mode, as numbers. -/
def Obligations.ThreeColourPaletteValues : Prop :=
  ∀ c0 c1 : Nat, c0 < 65536 → c1 < 65536 → c0 ≤ c1 →
    let P := colourPalette c0 c1 false
    let r0 := c0 / 2048; let g0 := c0 / 32 % 64; let b0 := c0 % 32
    let r1 := c1 / 2048; let g1 := c1 / 32 % 64; let b1 := c1 % 32
    (P[2].r.toNat = ((r0 + r1) * 1053 + 125) / 256 ∧
      P[2].g.toNat = ((g0 + g1) * 4145 + 1019) / 2048 ∧
      P[2].b.toNat = ((b0 + b1) * 1053 + 125) / 256 ∧ P[2].a = 0xFF) ∧
    P[3] = ⟨0x00, 0x00, 0x00, 0x00⟩

/-- R121: in four-colour mode the alpha byte of every decoded pixel is 0xFF, under both colour
commands. -/
def Obligations.FourColourTilesAreOpaque : Prop :=
  ∀ (i : Instr) (s : State), s.regs.ready s.cfg i →
    i = .dcolor ∨ (i = .dcolorp ∧ colourWord1 s.regs.loHalf < colourWord0 s.regs.loHalf) →
    ∃ t, exec i s = .next t ∧ ∀ r < 4, ∀ c < 4,
      Memory.read t.dst (pixelAt s 4 r c 3) = some 0xFF

/-- R122: in three-colour mode a pixel with index 3 decodes to four zero bytes and every other pixel
to alpha 0xFF. -/
def Obligations.PunchThroughPixelsAreTransparentBlack : Prop :=
  ∀ s : State, s.regs.ready s.cfg .dcolorp →
    colourWord0 s.regs.loHalf ≤ colourWord1 s.regs.loHalf →
    ∃ t, exec .dcolorp s = .next t ∧ ∀ r < 4, ∀ c < 4,
      ((colourIndex s.regs.loHalf (4 * r + c)).val = 3 →
        ∀ k < 4, Memory.read t.dst (pixelAt s 4 r c k) = some 0x00) ∧
      ((colourIndex s.regs.loHalf (4 * r + c)).val ≠ 3 →
        Memory.read t.dst (pixelAt s 4 r c 3) = some 0xFF)

/-- R123: with equal reference words, entries 0 to 2 are one colour in three-colour mode and entry 3
is transparent black; with forced opaque all four entries are the expanded colour. -/
def Obligations.EqualReferenceWordsGiveOneColour : Prop :=
  ∀ c : Nat, c < 65536 →
    let P := colourPalette c c false
    let Q := colourPalette c c true
    (P[1] = P[0] ∧ P[2] = P[0] ∧ P[3] = ⟨0x00, 0x00, 0x00, 0x00⟩) ∧
      (Q[1] = Q[0] ∧ Q[2] = Q[0] ∧ Q[3] = Q[0]) ∧ Q[0] = P[0] ∧ Q[0] = expanded (unpack565 c)

/-- R152, R154: the six-step ramp, truncating, as numbers. -/
def Obligations.SixStepRampValues : Prop :=
  ∀ e0 e1 : Nat, e0 < 256 → e1 < e0 →
    let A := alphaPalette e0 e1
    A[0].toNat = e0 ∧ A[1].toNat = e1 ∧
    ∀ k (h : k < 6), (A[2 + k]'(by omega)).toNat = ((6 - k) * e0 + (1 + k) * e1) / 7

/-- R152, R155: the four-step ramp, truncating, with the fixed floor and ceiling. -/
def Obligations.FourStepRampValues : Prop :=
  ∀ e0 e1 : Nat, e1 < 256 → e0 ≤ e1 →
    let A := alphaPalette e0 e1
    A[0].toNat = e0 ∧ A[1].toNat = e1 ∧
    (∀ k (h : k < 4), (A[2 + k]'(by omega)).toNat = ((4 - k) * e0 + (1 + k) * e1) / 5) ∧
    A[6] = 0x00 ∧ A[7] = 0xFF

/-- R159: both ramps are monotone between the endpoints. -/
def Obligations.SmoothRampsAreMonotone : Prop :=
  ∀ e0 e1 : Nat, e0 < 256 → e1 < 256 →
    let A := alphaPalette e0 e1
    (e1 < e0 → A[2].toNat ≤ A[0].toNat ∧ A[3].toNat ≤ A[2].toNat ∧ A[4].toNat ≤ A[3].toNat ∧
      A[5].toNat ≤ A[4].toNat ∧ A[6].toNat ≤ A[5].toNat ∧ A[7].toNat ≤ A[6].toNat ∧
      A[1].toNat ≤ A[7].toNat) ∧
    (e0 ≤ e1 → A[0].toNat ≤ A[2].toNat ∧ A[2].toNat ≤ A[3].toNat ∧ A[3].toNat ≤ A[4].toNat ∧
      A[4].toNat ≤ A[5].toNat ∧ A[5].toNat ≤ A[1].toNat ∧ A[6] = 0x00 ∧ A[7] = 0xFF)

/-! ## Two passes -/

/-- R193: storing R, G, B and the alpha byte of each pixel once leaves the same `DST` as the colour
pass followed by the alpha pass, for the sharp and the smooth unit. -/
def Obligations.MergedPassesLeaveTheSameDst : Prop :=
  ∀ (m : Memory) (r : Regs) (b d : Block), Memory.wf m → 16 ≤ r.pitch.toNat →
    let merged := fun alpha : Nat → Byte =>
      pixels.flatMap fun p => rgbaStores (offset r.pitch.toNat 4 p 0)
        { pixelColour b true p with a := alpha p }
    Memory.storeAll m ((colorPass b true r.pitch.toNat ++ sharpPass d r.pitch.toNat).map r.absolute) =
        Memory.storeAll m ((merged (sharpValue d)).map r.absolute) ∧
      Memory.storeAll m
          ((colorPass b true r.pitch.toNat ++ smoothPass d 4 3 r.pitch.toNat).map r.absolute) =
        Memory.storeAll m ((merged (smoothValue d)).map r.absolute)

/-- R196: in `DDUAL` a channel's bytes do not depend on the other channel's half of the block, nor,
in the commands that decode colour and alpha, the alpha byte on the colour half and the colour bytes
on the alpha half. -/
def Obligations.ChannelsDoNotInfluenceEachOther : Prop :=
  ∀ (i : Instr) (s t u : State) (blk : Vector Byte 16), i ∈ [Instr.dsharp, .dsmooth, .ddual] →
    s.regs.ready s.cfg i → exec i s = .next t → exec i (withBlk s blk) = .next u →
    ((∀ j (h : j < 8), blk[j] = s.regs.blk[j]) → ∀ r < 4, ∀ c < 4,
      let a := pixelAt s (pixelSize i) r c (if i = .ddual then 0 else 3)
      Memory.read u.dst a = Memory.read t.dst a) ∧
    ((∀ j (h : j < 8), blk[8 + j] = s.regs.blk[8 + j]) → ∀ r < 4, ∀ c < 4,
      ∀ k ∈ (if i = .ddual then [1] else [0, 1, 2]),
      let a := pixelAt s (pixelSize i) r c k
      Memory.read u.dst a = Memory.read t.dst a)

/-! ## Host accesses to registers -/

/-- R21: a write of `BLKWk` puts byte `j` of the value in `BLK[4k + j]` and changes no other block
register and nothing else; a read of `BLKWk` then returns the value. -/
def Obligations.BlockWordsAreALittleEndianView : Prop :=
  ∀ (s : State) (k : Nat) (v : Word), k < 4 → s.regs.status.fault = false →
    ∃ t, step (hostNext s (.wr (8 + k) v)) = .next t ∧
      t = withBlk s t.regs.blk ∧
      (∀ j (h : j < 16), t.regs.blk[j] =
        if j / 4 = k then BitVec.ofNat 8 (v.toNat / 256 ^ (j % 4)) else s.regs.blk[j]) ∧
      step (hostNext t (.rd (8 + k))) = .next { t with rdata := v }

/-- R22: `BLK_CNT` keeps bits [4:0] of the written value and reads zero-extended. -/
def Obligations.BlkCntKeepsFiveBits : Prop :=
  ∀ (s : State) (v : Word), s.regs.status.fault = false →
    ∃ t, step (hostNext s (.wr 0x05 v)) = .next t ∧
      t = { s with regs := { s.regs with blkCnt := t.regs.blkCnt } } ∧
      t.regs.blkCnt.toNat = v.toNat % 32 ∧
      step (hostNext t (.rd 0x05)) = .next { t with rdata := BitVec.ofNat 32 (v.toNat % 32) }

/-- R26: `DST_BASE`, `DST_LEN` and `PITCH` keep bits [AW-1:0] of the written value and read
zero-extended, for every `AW`. -/
def Obligations.RegionRegistersKeepAwBits : Prop :=
  ∀ (s : State) (v : Word), s.regs.status.fault = false →
    let kept : Word := BitVec.ofNat 32 (v.toNat % 2 ^ s.cfg.aw)
    (step (hostNext s (.wr 0x02 v)) = .next { s with regs := { s.regs with dstBase := kept } } ∧
      step (hostNext s (.wr 0x03 v)) = .next { s with regs := { s.regs with dstLen := kept } } ∧
      step (hostNext s (.wr 0x04 v)) = .next { s with regs := { s.regs with pitch := kept } }) ∧
    kept.toNat = v.toNat % 2 ^ s.cfg.aw ∧
    step (hostNext s (.rd 0x02)) = .next { s with rdata := s.regs.dstBase } ∧
    step (hostNext s (.rd 0x03)) = .next { s with rdata := s.regs.dstLen } ∧
    step (hostNext s (.rd 0x04)) = .next { s with rdata := s.regs.pitch }

/-- R33(a), R33(b): a write of `STATUS` or of a number that names no register changes nothing; a read
of such a number returns 0; any read, of a running or a halted core, returns the register and changes
no register, no byte of `DST` and no other instance; number 0x00 reads the last stored word (R24) and
number 0x01 reads `STATUS` (R25). That every number above 0x0B names no register is the model's
reading of R80 (log 15). -/
def Obligations.UnassignedNumbersIgnoreWritesAndReadZero : Prop :=
  ∀ (s : State) (reg : Nat) (v : Word),
    (reg = 0x01 ∨ reg = 0x06 ∨ reg = 0x07 ∨ 0x0B < reg →
      step (hostNext s (.wr reg v)) = .next s) ∧
    (reg = 0x06 ∨ reg = 0x07 ∨ 0x0B < reg →
      step (hostNext s (.rd reg)) = .next { s with rdata := 0 }) ∧
    step (hostNext s (.rd reg)) = .next { s with rdata := s.regs.read reg } ∧
    step (hostNext s (.rd 0x00)) = .next { s with rdata := s.regs.cmd } ∧
    step (hostNext s (.rd 0x01)) = .next { s with rdata := s.regs.status.word }

/-- R25: `STATUS` reads `DONE` at bit 0, `FAULT` at bit 1, `CAUSE` at bits [7:4] and 0 elsewhere, and
in every state that meets the invariant it has one of its six values. -/
def Obligations.StatusReadsOneOfSixValues : Prop :=
  ∀ s : State,
    ((s.regs.read 0x01).toNat = (if s.regs.status.done then 1 else 0) +
      (if s.regs.status.fault then 2 else 0) + 16 * s.regs.status.cause.toNat) ∧
    (s.Inv → s.regs.read 0x01 ∈
      ([0x00000000, 0x00000001, 0x00000012, 0x00000022, 0x00000032, 0x00000042] : List Word))

/-! ## Reset and runs -/

/-- R34: in the machine right after reset every register number but those of the block words reads 0,
and the build is R7's default. The contents of `BLK` are left open (U1, log 3). Two clauses are the
model's choice: that no byte of `DST` is listed as stored (log 5; R34 says only that reset does not
touch `DST`), and that every number above 0x0B names no register and reads 0 (log 15, by R33 and
R80). -/
def Obligations.ResetStateHoldsTheResetValues : Prop :=
  (∀ reg : Nat, reg < 0x08 ∨ 0x0B < reg → State.reset.regs.read reg = 0) ∧
    State.reset.dst = [] ∧ State.reset.cfg.aw = 32 ∧ State.reset.ninst = 1

/-- R240, R34: the reset event puts every register but `BLK` at 0 and touches neither `DST` nor
another instance (log 9: which instances a reset reaches is the model's choice), whatever state it
finds. -/
def Obligations.ResetClearsTheRegistersAndKeepsDst : Prop :=
  ∀ s : State, ∃ t, step (hostNext s .reset) = .next t ∧
    t.regs.blkCnt = 0 ∧ t.regs.cmd = 0 ∧ t.regs.status.word = 0 ∧
    t.regs.dstBase = 0 ∧ t.regs.dstLen = 0 ∧ t.regs.pitch = 0 ∧
    t.dst = s.dst ∧ t.others = s.others ∧ t.cfg = s.cfg ∧ t.host = s.host

/-- R241: after reset and before any host write, a write of any word to `CMD` faults and stores
nothing: a command word with `InputShort`, any other with `IllegalCommand`. -/
def Obligations.EveryCommandRightAfterResetFaults : Prop :=
  ∀ (s : State) (w : Word), ∃ t, step (hostNext s .reset) = .next t ∧
    ∃ u, step (hostNext t (.wr 0 w)) = .next u ∧ u.dst = s.dst ∧
      u.regs.status.word =
        if w ∈ ([0x00000000, 0x00000001, 0x00000002, 0x00000003, 0x00000004, 0x00000008] :
          List Word) then 0x00000022 else 0x00000012

/-- The invariant (R25, R26, R50, R210) holds of every legal build just powered on, with any number
of instances; `State.reset` is the build with `AW` = 32 and one instance. -/
def Obligations.InvariantHoldsAtPowerOn : Prop :=
  (∀ (c : Config) (n : Nat), c.legal = true → (State.powerOn c n).Inv) ∧ State.reset.Inv

/-- Every step keeps the invariant: `STATUS` and the frozen registers agree (R25, R210), the region
registers are `AW` bits wide (R26), `DST` keeps its canonical form inside its space (R50), on every
instance, for every host access and every command. -/
def Obligations.EveryStepKeepsTheInvariant : Prop :=
  ∀ s t : State, s.Inv → step s = .next t → t.Inv

/-- R7: no step changes the address width or the number of instances (held in State: log 1, log 2). -/
def Obligations.NoStepChangesTheBuild : Prop :=
  ∀ s t : State, step s = .next t → t.cfg = s.cfg ∧ t.ninst = s.ninst

/-! ## Several instances -/

/-- R224: an access to the addressed instance (log 2) changes no other instance's registers; a reset
is one of these accesses (log 9). -/
def Obligations.OtherInstancesKeepTheirRegisters : Prop :=
  ∀ (s t : State) (op : HostOp) (rest : List HostOp), s.host = op :: rest →
    (∀ k, op ≠ .select k) → (∀ cmds, op ≠ .together cmds) → step s = .next t →
    t.others = s.others

/-- R64: two commands that run together on different instances. Each changes its own instance's
registers as it does alone, and no other instance's. A byte that only one of them stores to ends as
that one leaves it, a byte that neither stores to is as before, and a byte that both store to ends
with one of the two values, the model's free choice (U4, log 10). -/
def Obligations.CommandsTogetherGiveTheUnionOfTheirStores : Prop :=
  ∀ (s : State) (j k : Nat) (v w : Word) (q r : Regs), j ≠ k → s.core? j = some q →
    s.core? k = some r →
    let A := wordResult v s.cfg q
    let B := wordResult w s.cfg r
    ∃ t, step (hostNext s (.together [(j, v), (k, w)])) = .next t ∧
      t.core? j = some A.regs ∧ t.core? k = some B.regs ∧
      (∀ n, n ≠ j → n ≠ k → t.core? n = s.core? n) ∧
      ∀ a,
        (a ∉ B.stores.map Prod.fst →
          Memory.read t.dst a = Memory.read (Memory.storeAll s.dst A.stores) a) ∧
        (a ∉ A.stores.map Prod.fst →
          Memory.read t.dst a = Memory.read (Memory.storeAll s.dst B.stores) a) ∧
        (a ∈ A.stores.map Prod.fst → a ∈ B.stores.map Prod.fst →
          Memory.read t.dst a = Memory.read (Memory.storeAll s.dst A.stores) a ∨
          Memory.read t.dst a = Memory.read (Memory.storeAll s.dst B.stores) a)

/-- R60: two commands one after the other on one instance: the later one's bytes win where both store,
the earlier one's stay elsewhere in its tile. -/
def Obligations.TheLaterCommandWins : Prop :=
  ∀ (i j : Instr) (s : State), s.regs.ready s.cfg i → s.regs.ready s.cfg j →
    ∃ t u x, exec i s = .next t ∧ exec j t = .next u ∧ exec j s = .next x ∧
      (∀ o ∈ writeSet j s.regs.pitch.toNat,
        Memory.read u.dst (s.regs.dstBase.toNat + o) =
          Memory.read x.dst (s.regs.dstBase.toNat + o)) ∧
      (∀ a, (∀ o ∈ writeSet j s.regs.pitch.toNat, a ≠ s.regs.dstBase.toNat + o) →
        Memory.read u.dst a = Memory.read t.dst a)

/-! ## Host scripts -/

/-- R92: the expansion of `BLK`: one pair for each four bytes, little-endian, a missing byte taken as
0, and then the count. -/
def Obligations.BlkPseudoInstructionExpandsToItsPairs : Prop :=
  ∀ bytes : List Byte,
    scriptPairs (Pseudo.blk bytes).expand =
      ((List.range ((bytes.length + 3) / 4)).map fun k =>
        (8 + k, BitVec.ofNat 32 ((bytes.getD (4 * k) 0).toNat +
          2 ^ 8 * (bytes.getD (4 * k + 1) 0).toNat + 2 ^ 16 * (bytes.getD (4 * k + 2) 0).toNat +
          2 ^ 24 * (bytes.getD (4 * k + 3) 0).toNat))) ++
      [(5, BitVec.ofNat 32 bytes.length)]

/-- R32(b): the host's own stores to `DST` land at consecutive addresses, change no other byte and no
register, and are refused as a whole where an address does not exist (the model's choice, log 12). -/
def Obligations.HostStoresItsOwnMemory : Prop :=
  ∀ (s : State) (a : Nat) (bytes : List Byte),
    (a + bytes.length ≤ 2 ^ s.cfg.aw →
      ∃ t, step (hostNext s (.mem a bytes)) = .next t ∧ t = { s with dst := t.dst } ∧
        (∀ j (h : j < bytes.length), Memory.read t.dst (a + j) = some bytes[j]) ∧
        (∀ x, x < a ∨ a + bytes.length ≤ x → Memory.read t.dst x = Memory.read s.dst x)) ∧
    (2 ^ s.cfg.aw < a + bytes.length →
      step (hostNext s (.mem a bytes)) = .fault .dstNoSuchAddress)

/-! ## Ends of a run, the other pseudo-instructions, the whole of `DST` -/

/-- R246: a run that has ended in a fault has not ended well; a run whose last write of `CMD` is a
command that completes has ended well once it is executed, whatever other accesses are left; and no
access but a write of `CMD`, a reset or the host's turning to another instance changes that. Said of
the addressed instance (several instances: the model's choice, log 16). -/
def Obligations.RunsEndWellOrInAFault : Prop :=
  ∀ s : State,
    (∀ k, s.endedInFault k → ¬ s.endedWell k) ∧
    (∀ i, s.Inv → s.regs.ready s.cfg i → (∀ op ∈ s.host, op.writesCmd = false) →
      ∃ t, step (hostNext s (.wr 0 (encode i))) = .next t ∧ t.endedWell 0) ∧
    (∀ (op : HostOp) (t : State), s.endedWell 0 → op.writesCmd = false → op ≠ .reset →
      (∀ k, op ≠ .select k) → step (hostNext s op) = .next t → t.endedWell 0)

/-- R92: the expansions of the pseudo-instructions other than `BLK`. -/
def Obligations.OtherPseudoInstructionsExpandAsTabled : Prop :=
  (∀ base len pitch : Word, (Pseudo.dst base len pitch).expand =
    [.wr 0x02 base, .wr 0x03 len, .wr 0x04 pitch]) ∧
  (Pseudo.command .dcolor).expand = [.wr 0x00 0x00000000] ∧
  (Pseudo.command .dcolorp).expand = [.wr 0x00 0x00000008] ∧
  (Pseudo.command .dsharp).expand = [.wr 0x00 0x00000001] ∧
  (Pseudo.command .dsmooth).expand = [.wr 0x00 0x00000002] ∧
  (Pseudo.command .dmono).expand = [.wr 0x00 0x00000003] ∧
  (Pseudo.command .ddual).expand = [.wr 0x00 0x00000004] ∧
  Pseudo.wait.expand = [.rd 0x01]

/-- R32(b), R50, R61: the host can read every byte of `DST`, whether or not anything has been stored
there (what it reads then is a free value, log 5); a byte that has been stored is what it reads; a
byte outside a command's write set reads as before the command; an address that does not exist is
refused by a fault (the model's choice, log 12). -/
def Obligations.HostReadsEveryByteOfDst : Prop :=
  ∀ (s : State) (a : Nat),
    (a < 2 ^ s.cfg.aw → step (hostNext s (.load a)) =
      .next { s with rdata := (Memory.byte s.dst a).setWidth 32 }) ∧
    (2 ^ s.cfg.aw ≤ a → step (hostNext s (.load a)) = .fault .dstNoSuchAddress) ∧
    (∀ v, Memory.read s.dst a = some v → Memory.byte s.dst a = v) ∧
    (∀ i t, exec i s = .next t →
      (∀ o ∈ writeSet i s.regs.pitch.toNat, a ≠ s.regs.dstBase.toNat + o) →
      Memory.byte t.dst a = Memory.byte s.dst a)
end

