-- ==== Sys2Proof/Laws/Decode.lean ====
section
/-! SUPPORT. The decoder's small lemmas: each encoded word decodes to its command, and the named
fields of a word are its bits. -/

namespace Sys2Proof

@[simp] theorem decode_encode (i : Instr) : decode (encode i) = .ok i := by cases i <;> rfl

theorem cmdFmt_eq (w : Word) : cmdFmt w = w.toNat % 8 := by
  simp [cmdFmt, BitVec.extractLsb'_toNat]

theorem cmdReserved_eq (w : Word) : cmdReserved w = w.toNat / 16 := by
  simp only [cmdReserved, BitVec.extractLsb'_toNat, Nat.shiftRight_eq_div_pow]
  omega

theorem cmdPt_eq (w : Word) : cmdPt w = decide (w.toNat / 8 % 2 = 1) := by
  simp [cmdPt, BitVec.getLsbD, Nat.testBit_eq_decide_div_mod_eq]

/-- The command words by their values (R82). -/
theorem encode_toNat (i : Instr) :
    (encode i).toNat = match i with
      | .dcolor => 0 | .dcolorp => 8 | .dsharp => 1 | .dsmooth => 2 | .dmono => 3 | .ddual => 4 := by
  cases i <;> rfl

theorem eq_encode_iff {w : Word} {i : Instr} : w = encode i ↔ w.toNat = (encode i).toNat :=
  BitVec.toNat_eq

/-- What the decoder accepts, and as what. -/
theorem decode_ok {w : Word} {i : Instr} (h : decode w = .ok i) : w = encode i := by
  simp only [decode] at h
  split_ifs at h with h0 h8 h1 h2 h3 h4
  all_goals (cases h; assumption)

/-- A word the decoder refuses is no command's word. -/
theorem ne_encode_of_decode_error {w : Word} {e : DecodeError} (h : decode w = .error e)
    (i : Instr) : w ≠ encode i := by
  rintro rfl
  simp at h

end Sys2Proof
end

