-- ==== Sys2Proof/Laws/State.lean ====
section
/-! SUPPORT. One lemma per field per update of the state. -/

namespace Sys2Proof.Machine

/-! ## A fault raised -/

section
variable (r : Regs) (x : Cause)
@[simp] theorem Regs.raise_blk : (r.raise x).blk = r.blk := rfl
@[simp] theorem Regs.raise_blkCnt : (r.raise x).blkCnt = r.blkCnt := rfl
@[simp] theorem Regs.raise_cmd : (r.raise x).cmd = r.cmd := rfl
@[simp] theorem Regs.raise_status : (r.raise x).status = Status.raised x := rfl
@[simp] theorem Regs.raise_dstBase : (r.raise x).dstBase = r.dstBase := rfl
@[simp] theorem Regs.raise_dstLen : (r.raise x).dstLen = r.dstLen := rfl
@[simp] theorem Regs.raise_pitch : (r.raise x).pitch = r.pitch := rfl
@[simp] theorem Status.raised_fault : (Status.raised x).fault = true := rfl
@[simp] theorem Status.raised_done : (Status.raised x).done = false := rfl
@[simp] theorem Status.raised_cause : (Status.raised x).cause = x.code := rfl
end

/-! ## Completion -/

section
variable (st : Status)
@[simp] theorem Status.completed_done : st.completed.done = true := rfl
@[simp] theorem Status.completed_fault : st.completed.fault = st.fault := rfl
@[simp] theorem Status.completed_cause : st.completed.cause = st.cause := rfl
end

/-! ## A command's result committed -/

section
variable (s : State) (res : CmdResult)
@[simp] theorem State.commit_cfg : (s.commit res).cfg = s.cfg := rfl
@[simp] theorem State.commit_regs : (s.commit res).regs = res.regs := rfl
@[simp] theorem State.commit_others : (s.commit res).others = s.others := rfl
@[simp] theorem State.commit_dst : (s.commit res).dst = Memory.storeAll s.dst res.stores := rfl
@[simp] theorem State.commit_host : (s.commit res).host = s.host := rfl
@[simp] theorem State.commit_rdata : (s.commit res).rdata = s.rdata := rfl
@[simp] theorem State.commit_fresh : (s.commit res).fresh = s.fresh := rfl
end

/-! ## An illegal word -/

section
variable (s : State) (w : Word)
@[simp] theorem State.illegalCommand_cfg : (s.illegalCommand w).cfg = s.cfg := rfl
@[simp] theorem State.illegalCommand_regs : (s.illegalCommand w).regs = s.regs.illegal w := rfl
@[simp] theorem State.illegalCommand_others : (s.illegalCommand w).others = s.others := rfl
@[simp] theorem State.illegalCommand_dst : (s.illegalCommand w).dst = s.dst := rfl
@[simp] theorem State.illegalCommand_host : (s.illegalCommand w).host = s.host := rfl
end

/-! ## The host's list -/

section
variable (s : State)
@[simp] theorem State.popHost_cfg : s.popHost.cfg = s.cfg := rfl
@[simp] theorem State.popHost_regs : s.popHost.regs = s.regs := rfl
@[simp] theorem State.popHost_others : s.popHost.others = s.others := rfl
@[simp] theorem State.popHost_dst : s.popHost.dst = s.dst := rfl
@[simp] theorem State.popHost_host : s.popHost.host = s.host.tail := rfl
@[simp] theorem State.popHost_rdata : s.popHost.rdata = s.rdata := rfl
@[simp] theorem State.popHost_fresh : s.popHost.fresh = s.fresh := rfl
@[simp] theorem State.idle_eq : s.idle = s := rfl
end

/-! ## Reset -/

section
variable (s : State)
@[simp] theorem State.resetEvent_cfg : s.resetEvent.cfg = s.cfg := rfl
@[simp] theorem State.resetEvent_regs : s.resetEvent.regs = Regs.reset s.fresh := rfl
@[simp] theorem State.resetEvent_others : s.resetEvent.others = s.others := rfl
@[simp] theorem State.resetEvent_dst : s.resetEvent.dst = s.dst := rfl
@[simp] theorem State.resetEvent_host : s.resetEvent.host = s.host := rfl
@[simp] theorem State.resetEvent_rdata : s.resetEvent.rdata = s.rdata := rfl
@[simp] theorem State.resetEvent_fresh : s.resetEvent.fresh = s.fresh + 1 := rfl
end

section
variable (n : Nat)
@[simp] theorem Regs.reset_blkCnt : (Regs.reset n).blkCnt = 0 := rfl
@[simp] theorem Regs.reset_cmd : (Regs.reset n).cmd = 0 := rfl
@[simp] theorem Regs.reset_status : (Regs.reset n).status = Status.reset := rfl
@[simp] theorem Regs.reset_dstBase : (Regs.reset n).dstBase = 0 := rfl
@[simp] theorem Regs.reset_dstLen : (Regs.reset n).dstLen = 0 := rfl
@[simp] theorem Regs.reset_pitch : (Regs.reset n).pitch = 0 := rfl
@[simp] theorem Status.reset_done : Status.reset.done = false := rfl
@[simp] theorem Status.reset_fault : Status.reset.fault = false := rfl
@[simp] theorem Status.reset_cause : Status.reset.cause = 0 := rfl
end

/-! ## Host accesses -/

section
variable (s : State) (reg : Nat) (v : Word)
@[simp] theorem State.hostRead_cfg : (s.hostRead reg).cfg = s.cfg := rfl
@[simp] theorem State.hostRead_regs : (s.hostRead reg).regs = s.regs := rfl
@[simp] theorem State.hostRead_others : (s.hostRead reg).others = s.others := rfl
@[simp] theorem State.hostRead_dst : (s.hostRead reg).dst = s.dst := rfl
@[simp] theorem State.hostRead_rdata : (s.hostRead reg).rdata = s.regs.read reg := rfl
@[simp] theorem State.hostWrite_cfg : (s.hostWrite reg v).cfg = s.cfg := rfl
@[simp] theorem State.hostWrite_regs :
    (s.hostWrite reg v).regs = s.regs.write s.cfg reg v := rfl
@[simp] theorem State.hostWrite_others : (s.hostWrite reg v).others = s.others := rfl
@[simp] theorem State.hostWrite_dst : (s.hostWrite reg v).dst = s.dst := rfl
end

section
variable (r : Regs) (k : Fin 4) (v : Word)
@[simp] theorem Regs.withBlkWord_blkCnt : (r.withBlkWord k v).blkCnt = r.blkCnt := rfl
@[simp] theorem Regs.withBlkWord_cmd : (r.withBlkWord k v).cmd = r.cmd := rfl
@[simp] theorem Regs.withBlkWord_status : (r.withBlkWord k v).status = r.status := rfl
@[simp] theorem Regs.withBlkWord_dstBase : (r.withBlkWord k v).dstBase = r.dstBase := rfl
@[simp] theorem Regs.withBlkWord_dstLen : (r.withBlkWord k v).dstLen = r.dstLen := rfl
@[simp] theorem Regs.withBlkWord_pitch : (r.withBlkWord k v).pitch = r.pitch := rfl

/-- R21: byte `i` of `BLK` after a write of `BLKWk`. -/
theorem Regs.withBlkWord_blk (i : Nat) (h : i < 16) :
    (r.withBlkWord k v).blk[i] =
      if i / 4 = k.val then v.extractLsb' (8 * (i % 4)) 8 else r.blk[i] := by
  simp [Regs.withBlkWord]
end

/-! ## Instances -/

section
variable (s : State) (k : Nat) (r : Regs)
@[simp] theorem State.setCore_cfg : (s.setCore k r).cfg = s.cfg := by cases k <;> rfl
@[simp] theorem State.setCore_dst : (s.setCore k r).dst = s.dst := by cases k <;> rfl
@[simp] theorem State.setCore_host : (s.setCore k r).host = s.host := by cases k <;> rfl
@[simp] theorem State.setCore_fresh : (s.setCore k r).fresh = s.fresh := by cases k <;> rfl
@[simp] theorem State.setCore_rdata : (s.setCore k r).rdata = s.rdata := by cases k <;> rfl
@[simp] theorem State.setCore_others_length :
    (s.setCore k r).others.length = s.others.length := by
  cases k <;> simp [State.setCore]
end

end Sys2Proof.Machine
end

