-- ==== Sys2Proof/Laws/Memory.lean ====
section
/-! SUPPORT. What a read of `DST` gives after stores, and that stores keep the canonical form. -/

namespace Sys2Proof.Machine

@[simp] theorem Memory.read_nil (a : Nat) : Memory.read [] a = none := rfl

/-- The one law of a byte store: the address written reads the new value, all others are as
before. -/
theorem Memory.read_write (m : Memory) (a : Nat) (v : Byte) (b : Nat) :
    Memory.read (Memory.write m a v) b = if b = a then some v else Memory.read m b := by
  induction m with
  | nil => simp [Memory.write, Memory.read]
  | cons cell rest ih =>
    obtain ⟨k, u⟩ := cell
    simp only [Memory.write]
    split
    · simp [Memory.read]
    · split
      · subst_vars
        by_cases h : b = k <;> simp [Memory.read, h]
      · simp only [Memory.read, ih]
        by_cases hk : b = k
        · have : k ≠ a := fun h => by omega
          simp [hk, this]
        · simp [hk]

@[simp] theorem Memory.read_write_same (m : Memory) (a : Nat) (v : Byte) :
    Memory.read (Memory.write m a v) a = some v := by simp [Memory.read_write]

theorem Memory.read_write_other (m : Memory) {a b : Nat} (v : Byte) (h : b ≠ a) :
    Memory.read (Memory.write m a v) b = Memory.read m b := by simp [Memory.read_write, h]

/-- A store lists no address but the old ones and its own. -/
theorem Memory.mem_write {m : Memory} {a : Nat} {v : Byte} {cell : Host.Cell}
    (h : cell ∈ Memory.write m a v) : cell = (a, v) ∨ cell ∈ m := by
  induction m with
  | nil => simpa [Memory.write] using h
  | cons head rest ih =>
    obtain ⟨k, u⟩ := head
    simp only [Memory.write] at h
    split at h
    · simpa using h
    · split at h
      · rcases List.mem_cons.1 h with h | h
        · exact .inl h
        · exact .inr (List.mem_cons_of_mem _ h)
      · rcases List.mem_cons.1 h with h | h
        · exact .inr (h ▸ List.mem_cons_self)
        · exact (ih h).imp id (List.mem_cons_of_mem _)

/-- A store keeps the canonical form. -/
theorem Memory.wf_write {m : Memory} (hm : Memory.wf m) (a : Nat) (v : Byte) :
    Memory.wf (Memory.write m a v) := by
  induction m with
  | nil => simp [Memory.wf, Memory.write]
  | cons head rest ih =>
    obtain ⟨k, u⟩ := head
    simp only [Memory.wf, List.map_cons, List.pairwise_cons] at hm
    simp only [Memory.write]
    split
    · rename_i hak
      simp only [Memory.wf, List.map_cons, List.pairwise_cons]
      refine ⟨fun x hx => ?_, hm⟩
      rcases List.mem_cons.1 hx with rfl | hx
      · exact hak
      · exact hak.trans (hm.1 x hx)
    · split
      · rename_i hak
        subst hak
        simpa only [Memory.wf, List.map_cons, List.pairwise_cons] using hm
      · simp only [Memory.wf, List.map_cons, List.pairwise_cons]
        refine ⟨fun x hx => ?_, ih hm.2⟩
        obtain ⟨cell, hc, rfl⟩ := List.mem_map.1 hx
        rcases Memory.mem_write hc with rfl | hc
        · show k < a
          omega
        · exact hm.1 _ (List.mem_map_of_mem hc)

/-- A store to an address that exists keeps every listed address inside the space. -/
theorem Memory.within_write {m : Memory} {space : Nat} (hm : Memory.within m space) {a : Nat}
    (ha : a < space) (v : Byte) : Memory.within (Memory.write m a v) space := by
  intro cell hc
  rcases Memory.mem_write hc with rfl | hc
  · exact ha
  · exact hm cell hc

/-! ## Stores in sequence -/

@[simp] theorem Memory.storeAll_nil (m : Memory) : Memory.storeAll m [] = m := rfl

@[simp] theorem Memory.storeAll_cons (m : Memory) (st : Store) (l : List Store) :
    Memory.storeAll m (st :: l) = Memory.storeAll (Memory.write m st.1 st.2) l := rfl

theorem Memory.storeAll_append (m : Memory) (l₁ l₂ : List Store) :
    Memory.storeAll m (l₁ ++ l₂) = Memory.storeAll (Memory.storeAll m l₁) l₂ := by
  induction l₁ generalizing m with
  | nil => rfl
  | cons st l ih => simp [ih]

/-- The value the last store to `a` in a list stores, if there is one. -/
def lastStore (l : List Store) (a : Nat) : Option Byte :=
  match l with
  | [] => none
  | (k, v) :: rest => (lastStore rest a).or (if a = k then some v else none)

/-- What a list of stores leaves at every address: the last one's value, else the old value. -/
theorem Memory.read_storeAll (m : Memory) (l : List Store) (a : Nat) :
    Memory.read (Memory.storeAll m l) a = (lastStore l a).or (Memory.read m a) := by
  induction l generalizing m with
  | nil => simp [lastStore]
  | cons st l ih =>
    obtain ⟨k, v⟩ := st
    rw [Memory.storeAll_cons, ih, Memory.read_write, lastStore, Option.or_assoc]
    by_cases h : a = k <;> simp [h]

theorem lastStore_append (l₁ l₂ : List Store) (a : Nat) :
    lastStore (l₁ ++ l₂) a = (lastStore l₂ a).or (lastStore l₁ a) := by
  induction l₁ with
  | nil => simp [lastStore]
  | cons st l ih =>
    obtain ⟨k, v⟩ := st
    simp [lastStore, ih, Option.or_assoc]

/-- No store of the list goes to `a`. -/
theorem lastStore_eq_none {l : List Store} {a : Nat} :
    lastStore l a = none ↔ ∀ st ∈ l, st.1 ≠ a := by
  induction l with
  | nil => simp [lastStore]
  | cons st l ih =>
    obtain ⟨k, v⟩ := st
    simp only [lastStore, Option.or_eq_none_iff, ih, List.forall_mem_cons]
    by_cases h : a = k
    · simp [h]
    · simp [h, Ne.symm h]

theorem lastStore_eq_none_of_not_mem {l : List Store} {a : Nat} (h : a ∉ l.map Prod.fst) :
    lastStore l a = none :=
  lastStore_eq_none.2 fun _ hst he => h (he ▸ List.mem_map_of_mem hst)

theorem lastStore_isSome_of_mem {l : List Store} {a : Nat} (h : a ∈ l.map Prod.fst) :
    ∃ v, lastStore l a = some v := by
  cases hl : lastStore l a with
  | some v => exact ⟨v, rfl⟩
  | none =>
    obtain ⟨st, hst, he⟩ := List.mem_map.1 h
    exact absurd he (lastStore_eq_none.1 hl st hst)

/-- The last value stored to `a` is one of the stores of the list. -/
theorem mem_of_lastStore {l : List Store} {a : Nat} {v : Byte} (h : lastStore l a = some v) :
    (a, v) ∈ l := by
  induction l with
  | nil => simp [lastStore] at h
  | cons st l ih =>
    obtain ⟨k, u⟩ := st
    rw [lastStore, Option.or_eq_some_iff] at h
    rcases h with h | ⟨-, h⟩
    · exact List.mem_cons_of_mem _ (ih h)
    · split at h
      · obtain rfl : u = v := by simpa using h
        subst_vars
        exact List.mem_cons_self
      · simp at h

/-- Where all stores of a list to `a` store one value, that value stays. -/
theorem lastStore_eq_of_unique {l : List Store} {a : Nat} {v : Byte} (hv : (a, v) ∈ l)
    (hu : ∀ u, (a, u) ∈ l → u = v) : lastStore l a = some v := by
  cases h : lastStore l a with
  | none => exact absurd rfl ((lastStore_eq_none.1 h) (a, v) hv)
  | some u => rw [hu u (mem_of_lastStore h)]

/-- An address no store of the list goes to reads as before. -/
theorem Memory.read_storeAll_of_ne {m : Memory} {l : List Store} {a : Nat}
    (h : ∀ st ∈ l, st.1 ≠ a) : Memory.read (Memory.storeAll m l) a = Memory.read m a := by
  rw [Memory.read_storeAll, lastStore_eq_none.2 h, Option.none_or]

theorem Memory.wf_storeAll {m : Memory} (hm : Memory.wf m) (l : List Store) :
    Memory.wf (Memory.storeAll m l) := by
  induction l generalizing m with
  | nil => exact hm
  | cons st l ih => exact ih (Memory.wf_write hm st.1 st.2)

theorem Memory.within_storeAll {m : Memory} {space : Nat} (hm : Memory.within m space)
    {l : List Store} (hl : ∀ st ∈ l, st.1 < space) :
    Memory.within (Memory.storeAll m l) space := by
  induction l generalizing m with
  | nil => exact hm
  | cons st l ih =>
    rw [List.forall_mem_cons] at hl
    exact ih (Memory.within_write hm hl.1 st.2) hl.2

/-! ## Stores in a race -/

/-- At an address no earlier command of the group has stored to, a racing command's stores act as
they do alone; at one it has, the value is the old one or this command's. -/
theorem Memory.read_storeRacing (m : Memory) (n : Nat) (taken : List Nat) (l : List Store)
    (a : Nat) :
    Memory.read (Memory.storeRacing m n taken l) a =
      if a ∈ taken ∧ Config.raceKeepsEarlier n a = true then Memory.read m a
      else (lastStore l a).or (Memory.read m a) := by
  induction l generalizing m with
  | nil => simp [Memory.storeRacing, lastStore]
  | cons st l ih =>
    obtain ⟨k, v⟩ := st
    rw [Memory.storeRacing]
    by_cases hk : k ∈ taken ∧ Config.raceKeepsEarlier n k = true
    · rw [if_pos hk, ih]
      by_cases ha : a ∈ taken ∧ Config.raceKeepsEarlier n a = true
      · rw [if_pos ha, if_pos ha]
      · have : a ≠ k := fun h => ha (h ▸ hk)
        simp [ha, lastStore, this]
    · rw [if_neg hk, ih, Memory.read_write]
      by_cases ha : a ∈ taken ∧ Config.raceKeepsEarlier n a = true
      · have : a ≠ k := fun h => hk (h ▸ ha)
        simp [ha, this]
      · rw [if_neg ha, if_neg ha, lastStore, Option.or_assoc]
        by_cases h : a = k <;> simp [h]

theorem Memory.wf_storeRacing {m : Memory} (hm : Memory.wf m) (n : Nat) (taken : List Nat)
    (l : List Store) : Memory.wf (Memory.storeRacing m n taken l) := by
  induction l generalizing m with
  | nil => exact hm
  | cons st l ih =>
    rw [Memory.storeRacing]
    split
    · exact ih hm
    · exact ih (Memory.wf_write hm st.1 st.2)

theorem Memory.within_storeRacing {m : Memory} {space : Nat} (hm : Memory.within m space)
    (n : Nat) (taken : List Nat) {l : List Store} (hl : ∀ st ∈ l, st.1 < space) :
    Memory.within (Memory.storeRacing m n taken l) space := by
  induction l generalizing m with
  | nil => exact hm
  | cons st l ih =>
    rw [List.forall_mem_cons] at hl
    rw [Memory.storeRacing]
    split
    · exact ih hm hl.2
    · exact ih (Memory.within_write hm hl.1 st.2) hl.2

/-! ## The byte at an address (R50) -/

/-- Where a byte has been stored, it is the byte there. -/
theorem Memory.byte_of_read {m : Memory} {a : Nat} {v : Byte} (h : Memory.read m a = some v) :
    Memory.byte m a = v := by simp [Memory.byte, h]

/-- What stores leave alone keeps its byte, stored or not. -/
theorem Memory.byte_congr {m₁ m₂ : Memory} {a : Nat} (h : Memory.read m₁ a = Memory.read m₂ a) :
    Memory.byte m₁ a = Memory.byte m₂ a := by simp [Memory.byte, h]

theorem Memory.byte_write (m : Memory) (a : Nat) (v : Byte) (b : Nat) :
    Memory.byte (Memory.write m a v) b = if b = a then v else Memory.byte m b := by
  split
  · rename_i h
    subst h
    exact Memory.byte_of_read (Memory.read_write_same m b v)
  · rename_i h
    exact Memory.byte_congr (Memory.read_write_other m v h)

/-! ## Equal reads, equal memories -/

/-- An address below every listed one reads nothing. -/
theorem Memory.read_eq_none_of_lt {m : Memory} {a : Nat} (h : ∀ x ∈ m.map Prod.fst, a < x) :
    Memory.read m a = none := by
  induction m with
  | nil => rfl
  | cons head rest ih =>
    obtain ⟨k, v⟩ := head
    simp only [List.map_cons, List.forall_mem_cons] at h
    simp [Memory.read, Nat.ne_of_lt h.1, ih h.2]

/-- Memories in canonical form that read alike at every address are equal. -/
theorem Memory.ext_of_wf {m₁ m₂ : Memory} (h₁ : Memory.wf m₁) (h₂ : Memory.wf m₂)
    (h : ∀ a, Memory.read m₁ a = Memory.read m₂ a) : m₁ = m₂ := by
  induction m₁ generalizing m₂ with
  | nil =>
    cases m₂ with
    | nil => rfl
    | cons head rest => simpa [Memory.read] using h head.1
  | cons c₁ r₁ ih =>
    cases m₂ with
    | nil => simpa [Memory.read] using h c₁.1
    | cons c₂ r₂ =>
      obtain ⟨k₁, v₁⟩ := c₁
      obtain ⟨k₂, v₂⟩ := c₂
      simp only [Memory.wf, List.map_cons, List.pairwise_cons] at h₁ h₂
      obtain rfl : k₁ = k₂ := by
        rcases Nat.lt_trichotomy k₁ k₂ with hlt | heq | hgt
        · have hnone : Memory.read ((k₂, v₂) :: r₂) k₁ = none :=
            Memory.read_eq_none_of_lt (by
              simp only [List.map_cons, List.forall_mem_cons]
              exact ⟨hlt, fun x hx => hlt.trans (h₂.1 x hx)⟩)
          have := h k₁
          rw [hnone] at this
          simp [Memory.read] at this
        · exact heq
        · have hnone : Memory.read ((k₁, v₁) :: r₁) k₂ = none :=
            Memory.read_eq_none_of_lt (by
              simp only [List.map_cons, List.forall_mem_cons]
              exact ⟨hgt, fun x hx => hgt.trans (h₁.1 x hx)⟩)
          have := h k₂
          rw [hnone] at this
          simp [Memory.read] at this
      obtain rfl : v₁ = v₂ := by simpa [Memory.read] using h k₁
      rw [ih h₁.2 h₂.2 fun a => ?_]
      by_cases ha : a = k₁
      · subst ha
        rw [Memory.read_eq_none_of_lt h₁.1, Memory.read_eq_none_of_lt h₂.1]
      · simpa [Memory.read, ha] using h a

end Sys2Proof.Machine
end

