-- ==== Sys2Proof/Laws/Tile.lean ====
section
/-! SUPPORT. The geometry of a tile (R12, R173, R175) and what the passes leave at each address. -/

namespace Sys2Proof.Machine

/-! ## Rows, columns, offsets -/

theorem bits_eq (v hi lo : Nat) : bits v hi lo = v / 2 ^ lo % 2 ^ (hi - lo + 1) := by
  rw [bits, Nat.shiftRight_eq_div_pow]

theorem row_eq {p : Nat} (h : p < 16) : row p = p / 4 := by
  simp only [row, bits_eq]; omega

theorem col_eq (p : Nat) : col p = p % 4 := by
  simp only [col, bits_eq]; omega

theorem mem_pixels {p : Nat} : p ∈ pixels ↔ p < 16 := List.mem_range

theorem offset_eq {p : Nat} (h : p < 16) (pitch size k : Nat) :
    offset pitch size p k = p / 4 * pitch + p % 4 * size + k := by
  rw [offset, row_eq h, col_eq]

/-- Division with remainder is unique. -/
theorem mul_add_unique {d q₁ q₂ r₁ r₂ : Nat} (h₁ : r₁ < d) (h₂ : r₂ < d)
    (h : q₁ * d + r₁ = q₂ * d + r₂) : q₁ = q₂ ∧ r₁ = r₂ := by
  have hd : 0 < d := by omega
  have e₁ : (q₁ * d + r₁) / d = q₁ := by
    rw [Nat.mul_comm, Nat.mul_add_div hd, Nat.div_eq_of_lt h₁, Nat.add_zero]
  have e₂ : (q₂ * d + r₂) / d = q₂ := by
    rw [Nat.mul_comm, Nat.mul_add_div hd, Nat.div_eq_of_lt h₂, Nat.add_zero]
  have hq : q₁ = q₂ := by rw [← e₁, ← e₂, h]
  subst hq
  exact ⟨rfl, by omega⟩

/-- With the minimum pitch met, two channel bytes of a tile have two offsets. -/
theorem offset_injective {pitch size p q j k : Nat} (hpitch : 4 * size ≤ pitch) (hp : p < 16)
    (hq : q < 16) (hj : j < size) (hk : k < size)
    (h : offset pitch size p j = offset pitch size q k) : p = q ∧ j = k := by
  rw [offset_eq hp, offset_eq hq, Nat.add_assoc, Nat.add_assoc] at h
  have inRow : ∀ {x y : Nat}, x % 4 < 4 → y < size → x % 4 * size + y < pitch := by
    intro x y hx hy
    have : x % 4 * size ≤ 3 * size := Nat.mul_le_mul_right _ (by omega)
    omega
  obtain ⟨hrow, hrest⟩ :=
    mul_add_unique (inRow (x := p) (by omega) hj) (inRow (x := q) (by omega) hk) h
  obtain ⟨hcol, hch⟩ := mul_add_unique hj hk hrest
  exact ⟨by omega, hch⟩

/-- The largest offset of a tile is below the length R176 asks for. -/
theorem offset_lt {pitch size p k : Nat} (hp : p < 16) (hk : k < size) :
    offset pitch size p k < 3 * pitch + 4 * size := by
  rw [offset_eq hp]
  have h₁ : p / 4 * pitch ≤ 3 * pitch := Nat.mul_le_mul_right _ (by omega)
  have h₂ : p % 4 * size ≤ 3 * size := Nat.mul_le_mul_right _ (by omega)
  omega

/-- Membership in a command's write set (R177). -/
theorem mem_writeSet {i : Instr} {pitch o : Nat} :
    o ∈ writeSet i pitch ↔ ∃ p < 16, ∃ k < pixelSize i, offset pitch (pixelSize i) p k = o := by
  simp [writeSet, mem_pixels]

/-! ## Passes as stores over pixels and channels -/

/-- The stores of a pass that writes channels `ks` of every pixel. -/
def tileStores (pitch size : Nat) (ks : List Nat) (value : Nat → Nat → Byte) : List Store :=
  pixels.flatMap fun p => ks.map fun k => (offset pitch size p k, value p k)

/-- Byte `k` of a pixel (R119: R, G, B, A from the lowest address). -/
def Rgba.channel (e : Rgba) (k : Nat) : Byte :=
  match k with
  | 0 => e.r
  | 1 => e.g
  | 2 => e.b
  | _ => e.a

theorem colorPass_eq_tileStores (b : Block) (o : Bool) (pitch : Nat) :
    colorPass b o pitch =
      tileStores pitch 4 [0, 1, 2, 3] fun p k => (pixelColour b o p).channel k := by
  simp [colorPass, tileStores, rgbaStores, Rgba.channel, offset]

theorem bytePass_eq_tileStores (pitch size k : Nat) (value : Nat → Byte) :
    bytePass pitch size k value = tileStores pitch size [k] fun p _ => value p := by
  simp [bytePass, tileStores, ← List.map_eq_flatMap]

theorem mem_tileStores {pitch size : Nat} {ks : List Nat} {value : Nat → Nat → Byte}
    {st : Store} :
    st ∈ tileStores pitch size ks value ↔
      ∃ p < 16, ∃ k ∈ ks, (offset pitch size p k, value p k) = st := by
  simp [tileStores, mem_pixels]

/-- A pass leaves at each of its channel bytes the byte it computes for it. -/
theorem lastStore_tileStores {pitch size : Nat} {ks : List Nat} (hpitch : 4 * size ≤ pitch)
    (hks : ∀ k ∈ ks, k < size) (value : Nat → Nat → Byte) (r : Regs) {p k : Nat} (hp : p < 16)
    (hk : k ∈ ks) :
    lastStore ((tileStores pitch size ks value).map r.absolute)
      (r.dstBase.toNat + offset pitch size p k) = some (value p k) := by
  refine lastStore_eq_of_unique
    (List.mem_map.2 ⟨_, mem_tileStores.2 ⟨p, hp, k, hk, rfl⟩, rfl⟩) fun u hu => ?_
  obtain ⟨st, hst, he⟩ := List.mem_map.1 hu
  obtain ⟨q, hq, j, hj, rfl⟩ := mem_tileStores.1 hst
  simp only [Regs.absolute, Prod.mk.injEq, Nat.add_left_cancel_iff] at he
  obtain ⟨rfl, rfl⟩ := offset_injective hpitch hq hp (hks j hj) (hks k hk) he.1
  exact he.2.symm

/-- A pass stores to no address that is not one of its channel bytes. -/
theorem lastStore_tileStores_none {pitch size : Nat} {ks : List Nat} {value : Nat → Nat → Byte}
    {r : Regs} {a : Nat}
    (ha : ∀ p < 16, ∀ k ∈ ks, a ≠ r.dstBase.toNat + offset pitch size p k) :
    lastStore ((tileStores pitch size ks value).map r.absolute) a = none := by
  refine lastStore_eq_none.2 fun st hst he => ?_
  obtain ⟨o, ho, rfl⟩ := List.mem_map.1 hst
  obtain ⟨p, hp, k, hk, rfl⟩ := mem_tileStores.1 ho
  exact ha p hp k hk he.symm

end Sys2Proof.Machine
end

