-- ==== Sys2Proof/Laws/Commands.lean ====
section
/-! SUPPORT. Everything a command can do (R185): one equation for `exec`, one for each way a command
can end, and what a completed command leaves at every address of `DST`. -/

namespace Sys2Proof.Machine

/-- The stores of a command's recipe (R186), as offsets, in order. -/
def recipe (i : Instr) (r : Regs) : List Store :=
  match i with
  | .dcolor => colorPass r.loHalf true r.pitch.toNat
  | .dcolorp => colorPass r.loHalf false r.pitch.toNat
  | .dsharp => colorPass r.hiHalf true r.pitch.toNat ++ sharpPass r.loHalf r.pitch.toNat
  | .dsmooth => colorPass r.hiHalf true r.pitch.toNat ++ smoothPass r.loHalf 4 3 r.pitch.toNat
  | .dmono => smoothPass r.loHalf 1 0 r.pitch.toNat
  | .ddual => smoothPass r.loHalf 2 0 r.pitch.toNat ++ smoothPass r.hiHalf 2 1 r.pitch.toNat

/-- The byte a command leaves at channel `k` of pixel `p` (R187 to R192). -/
def tileByte (i : Instr) (r : Regs) (p k : Nat) : Byte :=
  match i with
  | .dcolor => (pixelColour r.loHalf true p).channel k
  | .dcolorp => (pixelColour r.loHalf false p).channel k
  | .dsharp => if k = 3 then sharpValue r.loHalf p else (pixelColour r.hiHalf true p).channel k
  | .dsmooth => if k = 3 then smoothValue r.loHalf p else (pixelColour r.hiHalf true p).channel k
  | .dmono => smoothValue r.loHalf p
  | .ddual => if k = 1 then smoothValue r.hiHalf p else smoothValue r.loHalf p

theorem commandResult_eq (i : Instr) (c : Config) (r : Regs) :
    commandResult i c r = r.execute c i (recipe i r) := by cases i <;> rfl

/-- Every command answers a next state: its result committed. -/
theorem exec_eq (i : Instr) (s : State) :
    exec i s = .next (s.commit (commandResult i s.cfg s.regs)) := by cases i <;> rfl

/-! ## The three ways a command ends -/

theorem Regs.execute_halted {c : Config} {r : Regs} (h : r.status.fault = true) (i : Instr)
    (l : List Store) : r.execute c i l = ⟨r, []⟩ := by
  simp [Regs.execute, Regs.halted, h]

theorem Regs.execute_violation {c : Config} {r : Regs} {i : Instr} {x : Cause}
    (h : r.status.fault = false) (hx : r.violation? c i = some x) (l : List Store) :
    r.execute c i l = ⟨{ r with cmd := encode i, status := Status.raised x }, []⟩ := by
  simp [Regs.execute, Regs.halted, h, hx, Regs.raise]

theorem Regs.execute_done {c : Config} {r : Regs} {i : Instr} (h : r.status.fault = false)
    (hx : r.violation? c i = none) (l : List Store) :
    r.execute c i l =
      ⟨{ r with cmd := encode i, status := r.status.completed }, l.map r.absolute⟩ := by
  simp [Regs.execute, Regs.halted, h, hx]

/-- `execute` ends in one of the three ways. -/
theorem Regs.execute_cases (c : Config) (r : Regs) (i : Instr) (l : List Store) :
    (r.status.fault = true ∧ r.execute c i l = ⟨r, []⟩) ∨
    (∃ x, r.status.fault = false ∧ r.violation? c i = some x ∧
      r.execute c i l = ⟨{ r with cmd := encode i, status := Status.raised x }, []⟩) ∨
    (r.status.fault = false ∧ r.violation? c i = none ∧
      r.execute c i l =
        ⟨{ r with cmd := encode i, status := r.status.completed }, l.map r.absolute⟩) := by
  cases h : r.status.fault with
  | true => exact .inl ⟨rfl, Regs.execute_halted h i l⟩
  | false =>
    cases hx : r.violation? c i with
    | some x => exact .inr (.inl ⟨x, rfl, rfl, Regs.execute_violation h hx l⟩)
    | none => exact .inr (.inr ⟨rfl, rfl, Regs.execute_done h hx l⟩)

/-! ## The checks -/

/-- The checks of R185 steps 3 and 4, spelled out. -/
theorem Regs.violation?_eq (c : Config) (r : Regs) (i : Instr) :
    r.violation? c i =
      if r.blkCnt.toNat < blockBytes i then some .inputShort
      else if r.pitch.toNat < 4 * pixelSize i then some .pitchFault
      else if 2 ^ c.aw < r.dstBase.toNat + r.dstLen.toNat ∨
          r.dstLen.toNat < 3 * r.pitch.toNat + 4 * pixelSize i then some .outputBounds
      else none := rfl

theorem Regs.violation?_eq_none {c : Config} {r : Regs} {i : Instr} :
    r.violation? c i = none ↔
      blockBytes i ≤ r.blkCnt.toNat ∧ 4 * pixelSize i ≤ r.pitch.toNat ∧
        r.dstBase.toNat + r.dstLen.toNat ≤ 2 ^ c.aw ∧
        3 * r.pitch.toNat + 4 * pixelSize i ≤ r.dstLen.toNat := by
  rw [Regs.violation?_eq]
  split_ifs <;> simp only [false_iff, true_iff] <;> omega

theorem Regs.ready_iff {c : Config} {r : Regs} {i : Instr} :
    r.ready c i ↔ r.status.fault = false ∧ r.violation? c i = none := by
  rw [Regs.ready, Regs.violation?_eq_none]

theorem Regs.violation?_inputShort {c : Config} {r : Regs} {i : Instr}
    (h : r.blkCnt.toNat < blockBytes i) : r.violation? c i = some .inputShort := by
  rw [Regs.violation?_eq, if_pos h]

theorem Regs.violation?_pitchFault {c : Config} {r : Regs} {i : Instr}
    (h₁ : blockBytes i ≤ r.blkCnt.toNat) (h₂ : r.pitch.toNat < 4 * pixelSize i) :
    r.violation? c i = some .pitchFault := by
  rw [Regs.violation?_eq, if_neg (Nat.not_lt.2 h₁), if_pos h₂]

theorem Regs.violation?_outputBounds {c : Config} {r : Regs} {i : Instr}
    (h₁ : blockBytes i ≤ r.blkCnt.toNat) (h₂ : 4 * pixelSize i ≤ r.pitch.toNat)
    (h₃ : 2 ^ c.aw < r.dstBase.toNat + r.dstLen.toNat ∨
      r.dstLen.toNat < 3 * r.pitch.toNat + 4 * pixelSize i) :
    r.violation? c i = some .outputBounds := by
  rw [Regs.violation?_eq, if_neg (Nat.not_lt.2 h₁), if_neg (Nat.not_lt.2 h₂), if_pos h₃]

/-- A fault of a decoded command is never `IllegalCommand`. -/
theorem Regs.violation?_ne_illegal {c : Config} {r : Regs} {i : Instr} :
    r.violation? c i ≠ some .illegalCommand := by
  rw [Regs.violation?_eq]
  split_ifs <;> simp

/-- The checks look at `BLK_CNT`, `DST_BASE`, `DST_LEN` and `PITCH` only (R221). -/
theorem Regs.violation?_congr {c : Config} {r r' : Regs} (i : Instr)
    (h₁ : r.blkCnt = r'.blkCnt) (h₂ : r.dstBase = r'.dstBase) (h₃ : r.dstLen = r'.dstLen)
    (h₄ : r.pitch = r'.pitch) : r.violation? c i = r'.violation? c i := by
  rw [Regs.violation?_eq, Regs.violation?_eq, h₁, h₂, h₃, h₄]

/-! ## What a completed command leaves in `DST` -/

theorem sharpPass_eq_tileStores (b : Block) (pitch : Nat) :
    sharpPass b pitch = tileStores pitch 4 [3] fun p _ => sharpValue b p :=
  bytePass_eq_tileStores ..

theorem smoothPass_eq_tileStores (b : Block) (stride off pitch : Nat) :
    smoothPass b stride off pitch = tileStores pitch stride [off] fun p _ => smoothValue b p :=
  bytePass_eq_tileStores ..

/-- At every channel byte of the tile, the recipe's last store is the command's byte (R193). -/
theorem lastStore_recipe {i : Instr} {r : Regs} (hpitch : 4 * pixelSize i ≤ r.pitch.toNat)
    {p k : Nat} (hp : p < 16) (hk : k < pixelSize i) :
    lastStore ((recipe i r).map r.absolute)
      (r.dstBase.toNat + offset r.pitch.toNat (pixelSize i) p k) = some (tileByte i r p k) := by
  have colour : ∀ (b : Block) (o : Bool) {k : Nat}, k < 4 → 4 * 4 ≤ r.pitch.toNat →
      lastStore ((colorPass b o r.pitch.toNat).map r.absolute)
        (r.dstBase.toNat + offset r.pitch.toNat 4 p k) = some ((pixelColour b o p).channel k) := by
    intro b o k hk h
    rw [colorPass_eq_tileStores]
    exact lastStore_tileStores h (by simp) _ r hp (by simp; omega)
  have hit : ∀ (size k : Nat) (v : Nat → Byte), 4 * size ≤ r.pitch.toNat → k < size →
      lastStore ((tileStores r.pitch.toNat size [k] fun p _ => v p).map r.absolute)
        (r.dstBase.toNat + offset r.pitch.toNat size p k) = some (v p) := by
    intro size k v h hk
    exact lastStore_tileStores h (by simpa using hk) (fun p _ => v p) r hp (by simp)
  have miss : ∀ (size j : Nat) (v : Nat → Byte), 4 * size ≤ r.pitch.toNat → j < size →
      k < size → k ≠ j →
      lastStore ((tileStores r.pitch.toNat size [j] fun p _ => v p).map r.absolute)
        (r.dstBase.toNat + offset r.pitch.toNat size p k) = none := by
    intro size j v h hj hk hne
    refine lastStore_tileStores_none fun q hq k' hk' he => ?_
    obtain rfl : k' = j := by simpa using hk'
    exact hne (offset_injective h hp hq hk hj (by omega)).2
  cases i with
  | dcolor => exact colour _ _ hk hpitch
  | dcolorp => exact colour _ _ hk hpitch
  | dsharp =>
    simp only [recipe, pixelSize, List.map_append, lastStore_append, sharpPass_eq_tileStores,
      tileByte] at hpitch hk ⊢
    by_cases h3 : k = 3
    · subst h3
      simp [hit 4 3 _ hpitch (by omega)]
    · simp [miss 4 3 _ hpitch (by omega) hk h3, colour _ _ hk hpitch, h3]
  | dsmooth =>
    simp only [recipe, pixelSize, List.map_append, lastStore_append, smoothPass_eq_tileStores,
      tileByte] at hpitch hk ⊢
    by_cases h3 : k = 3
    · subst h3
      simp [hit 4 3 _ hpitch (by omega)]
    · simp [miss 4 3 _ hpitch (by omega) hk h3, colour _ _ hk hpitch, h3]
  | dmono =>
    simp only [recipe, pixelSize, smoothPass_eq_tileStores, tileByte] at hpitch hk ⊢
    obtain rfl : k = 0 := by omega
    exact hit 1 0 _ hpitch (by omega)
  | ddual =>
    simp only [recipe, pixelSize, List.map_append, lastStore_append, smoothPass_eq_tileStores,
      tileByte] at hpitch hk ⊢
    obtain rfl | rfl : k = 0 ∨ k = 1 := by omega
    · simp [miss 2 1 _ hpitch (by omega) (by omega) (by omega), hit 2 0 _ hpitch (by omega)]
    · simp [hit 2 1 _ hpitch (by omega)]

/-- Every store of the recipe goes to a channel byte of the tile (R177). -/
theorem mem_recipe {i : Instr} {r : Regs} {st : Store} (h : st ∈ recipe i r) :
    ∃ p < 16, ∃ k < pixelSize i, st.1 = offset r.pitch.toNat (pixelSize i) p k := by
  have tile : ∀ {size : Nat} {ks : List Nat} {v : Nat → Nat → Byte},
      st ∈ tileStores r.pitch.toNat size ks v → (∀ k ∈ ks, k < size) →
      ∃ p < 16, ∃ k < size, st.1 = offset r.pitch.toNat size p k := by
    intro size ks v hst hks
    obtain ⟨p, hp, k, hk, rfl⟩ := mem_tileStores.1 hst
    exact ⟨p, hp, k, hks k hk, rfl⟩
  cases i with
  | dcolor =>
    rw [recipe, colorPass_eq_tileStores] at h
    exact tile h (by decide)
  | dcolorp =>
    rw [recipe, colorPass_eq_tileStores] at h
    exact tile h (by decide)
  | dsharp =>
    rw [recipe, colorPass_eq_tileStores, sharpPass_eq_tileStores, List.mem_append] at h
    exact h.elim (tile · (by decide)) (tile · (by decide))
  | dsmooth =>
    rw [recipe, colorPass_eq_tileStores, smoothPass_eq_tileStores, List.mem_append] at h
    exact h.elim (tile · (by decide)) (tile · (by decide))
  | dmono =>
    rw [recipe, smoothPass_eq_tileStores] at h
    exact tile h (by decide)
  | ddual =>
    rw [recipe, smoothPass_eq_tileStores, smoothPass_eq_tileStores, List.mem_append] at h
    exact h.elim (tile · (by decide)) (tile · (by decide))

/-- The recipe stores to no address outside the tile (R178). -/
theorem lastStore_recipe_none {i : Instr} {r : Regs} {a : Nat}
    (ha : ∀ p < 16, ∀ k < pixelSize i,
      a ≠ r.dstBase.toNat + offset r.pitch.toNat (pixelSize i) p k) :
    lastStore ((recipe i r).map r.absolute) a = none := by
  refine lastStore_eq_none.2 fun st hst he => ?_
  obtain ⟨o, ho, rfl⟩ := List.mem_map.1 hst
  obtain ⟨p, hp, k, hk, hok⟩ := mem_recipe ho
  exact ha p hp k hk (by rw [← he, Regs.absolute, hok])

/-- A command that passes the checks stores inside its region only (R51, R176, R214). -/
theorem recipe_in_region {c : Config} {i : Instr} {r : Regs} (h : r.violation? c i = none)
    {st : Store} (hst : st ∈ (recipe i r).map r.absolute) :
    r.dstBase.toNat ≤ st.1 ∧ st.1 < r.dstBase.toNat + r.dstLen.toNat ∧ st.1 < c.space := by
  obtain ⟨o, ho, rfl⟩ := List.mem_map.1 hst
  obtain ⟨p, hp, k, hk, hok⟩ := mem_recipe ho
  obtain ⟨-, -, hfit, hlen⟩ := Regs.violation?_eq_none.1 h
  have := offset_lt (pitch := r.pitch.toNat) hp hk
  simp only [Regs.absolute, Config.space, hok]
  omega

/-! ## `exec` -/

/-- A ready command completes: the registers and `DST` after it (R185, R187 to R192). -/
theorem exec_ready {i : Instr} {s : State} (h : s.regs.ready s.cfg i) :
    exec i s = .next { s with
      regs := { s.regs with cmd := encode i, status := s.regs.status.completed }
      dst := Memory.storeAll s.dst ((recipe i s.regs).map s.regs.absolute) } := by
  obtain ⟨hf, hv⟩ := Regs.ready_iff.1 h
  rw [exec_eq, commandResult_eq, Regs.execute_done hf hv]
  rfl

/-- A command on a halted core changes nothing (R185 step 0, R218). -/
theorem exec_halted {i : Instr} {s : State} (h : s.regs.status.fault = true) :
    exec i s = .next s := by
  rw [exec_eq, commandResult_eq, Regs.execute_halted h]
  rfl

/-- A command whose check fails changes `CMD` and `STATUS` and nothing else (R216, R217). -/
theorem exec_violation {i : Instr} {s : State} {x : Cause} (h : s.regs.status.fault = false)
    (hx : s.regs.violation? s.cfg i = some x) :
    exec i s = .next { s with
      regs := { s.regs with cmd := encode i, status := Status.raised x } } := by
  rw [exec_eq, commandResult_eq, Regs.execute_violation h hx]
  rfl

/-- Everything a command can do. -/
theorem exec_cases {i : Instr} {s t : State} (h : exec i s = .next t) :
    (s.regs.status.fault = true ∧ t = s) ∨
    (∃ x, s.regs.status.fault = false ∧ s.regs.violation? s.cfg i = some x ∧
      t = { s with regs := { s.regs with cmd := encode i, status := Status.raised x } }) ∨
    (s.regs.ready s.cfg i ∧
      t = { s with
        regs := { s.regs with cmd := encode i, status := s.regs.status.completed }
        dst := Memory.storeAll s.dst ((recipe i s.regs).map s.regs.absolute) }) := by
  rcases Regs.execute_cases s.cfg s.regs i (recipe i s.regs) with
    ⟨hf, -⟩ | ⟨x, hf, hx, -⟩ | ⟨hf, hx, -⟩
  · rw [exec_halted hf] at h
    cases h
    exact .inl ⟨hf, rfl⟩
  · rw [exec_violation hf hx] at h
    cases h
    exact .inr (.inl ⟨x, hf, hx, rfl⟩)
  · have hr := Regs.ready_iff.2 ⟨hf, hx⟩
    rw [exec_ready hr] at h
    cases h
    exact .inr (.inr ⟨hr, rfl⟩)

/-- The bytes of a completed command: inside the tile the command's, elsewhere the old ones. -/
theorem read_after_ready {i : Instr} {s : State} (h : s.regs.ready s.cfg i) {p k : Nat}
    (hp : p < 16) (hk : k < pixelSize i) :
    Memory.read (Memory.storeAll s.dst ((recipe i s.regs).map s.regs.absolute))
      (s.regs.dstBase.toNat + offset s.regs.pitch.toNat (pixelSize i) p k) =
        some (tileByte i s.regs p k) := by
  rw [Memory.read_storeAll, lastStore_recipe h.2.2.1 hp hk, Option.some_or]

theorem read_after_outside {i : Instr} {s : State} {a : Nat}
    (ha : ∀ p < 16, ∀ k < pixelSize i,
      a ≠ s.regs.dstBase.toNat + offset s.regs.pitch.toNat (pixelSize i) p k) :
    Memory.read (Memory.storeAll s.dst ((recipe i s.regs).map s.regs.absolute)) a =
      Memory.read s.dst a := by
  rw [Memory.read_storeAll, lastStore_recipe_none ha, Option.none_or]

/-- A ready command, by its tile: the state it answers, its bytes row by row, and every other byte
as before. -/
theorem exec_ready_tile {i : Instr} {s : State} (h : s.regs.ready s.cfg i) :
    ∃ t, exec i s = .next t ∧
      t = { s with
        regs := { s.regs with cmd := encode i, status := s.regs.status.completed }
        dst := t.dst } ∧
      (∀ r < 4, ∀ c < 4, ∀ k < pixelSize i,
        Memory.read t.dst
          (s.regs.dstBase.toNat + (r * s.regs.pitch.toNat + c * pixelSize i + k)) =
            some (tileByte i s.regs (4 * r + c) k)) ∧
      ∀ a, (∀ p < 16, ∀ k < pixelSize i,
          a ≠ s.regs.dstBase.toNat + offset s.regs.pitch.toNat (pixelSize i) p k) →
        Memory.read t.dst a = Memory.read s.dst a := by
  refine ⟨_, exec_ready h, rfl, fun r hr c hc k hk => ?_, fun a ha => read_after_outside ha⟩
  have hread := read_after_ready h (p := 4 * r + c) (by omega) hk
  rwa [offset_eq (by omega), (by omega : (4 * r + c) / 4 = r),
    (by omega : (4 * r + c) % 4 = c)] at hread

end Sys2Proof.Machine
end

