-- ==== Sys2Proof/Laws/Invariant.lean ====
section
/-! SUPPORT. What each operation on the registers of one instance keeps (R25, R26, R210), and that
stores keep `DST` in order. -/

namespace Sys2Proof.Machine

/-- R26: truncation to `AW` bits as a number. -/
@[simp] theorem truncAw_toNat (c : Config) (v : Word) :
    (truncAw c v).toNat = v.toNat % 2 ^ c.aw := by
  have h : v.toNat % 2 ^ c.aw ≤ v.toNat := Nat.mod_le ..
  have := v.isLt
  rw [truncAw, BitVec.toNat_ofNat, Nat.mod_eq_of_lt (by omega)]

theorem truncAw_lt (c : Config) (v : Word) : (truncAw c v).toNat < c.space := by
  rw [truncAw_toNat]
  exact Nat.mod_lt _ (Nat.two_pow_pos _)

theorem space_pos (c : Config) : 0 < c.space := Nat.two_pow_pos _

/-! ## `recordsTruly` by the way `STATUS` and `CMD` got their values -/

theorem Regs.recordsTruly_of_clear {c : Config} {r : Regs} (hf : r.status.fault = false)
    (hc : r.status.cause = 0) (hd : r.status.done = true → ∃ i, r.cmd = encode i) :
    r.recordsTruly c := by
  simp only [Regs.recordsTruly, hf, Bool.false_eq_true, if_false]
  exact ⟨hc, hd⟩

theorem Regs.recordsTruly.cause_eq_zero {c : Config} {r : Regs} (h : r.recordsTruly c)
    (hf : r.status.fault = false) : r.status.cause = 0 := by
  simp only [Regs.recordsTruly, hf, Bool.false_eq_true, if_false] at h
  exact h.1

theorem Regs.recordsTruly.cmd_of_done {c : Config} {r : Regs} (h : r.recordsTruly c)
    (hf : r.status.fault = false) (hd : r.status.done = true) : ∃ i, r.cmd = encode i := by
  simp only [Regs.recordsTruly, hf, Bool.false_eq_true, if_false] at h
  exact h.2 hd

theorem Regs.recordsTruly_of_violation {c : Config} {r : Regs} {i : Instr} {x : Cause}
    (hs : r.status = Status.raised x) (hcmd : r.cmd = encode i)
    (hx : r.violation? c i = some x) : r.recordsTruly c := by
  simp only [Regs.recordsTruly, hs, Status.raised_fault, if_true, hcmd, decode_encode]
  exact ⟨rfl, x, hx, rfl⟩

theorem Regs.recordsTruly_of_illegal {c : Config} {r : Regs} {e : DecodeError}
    (hs : r.status = Status.raised .illegalCommand) (he : decode r.cmd = .error e) :
    r.recordsTruly c := by
  simp only [Regs.recordsTruly, hs, Status.raised_fault, if_true, he]
  exact ⟨rfl, rfl⟩

/-! ## Each operation keeps `Regs.Inv` -/

theorem Regs.Inv_reset (c : Config) (n : Nat) : (Regs.reset n).Inv c :=
  ⟨⟨space_pos c, space_pos c, space_pos c⟩, Regs.recordsTruly_of_clear rfl rfl nofun⟩

theorem Regs.Inv_execute {c : Config} {r : Regs} (h : r.Inv c) (i : Instr) (l : List Store) :
    (r.execute c i l).regs.Inv c := by
  obtain ⟨hfits, hrec⟩ := h
  rcases Regs.execute_cases c r i l with ⟨-, he⟩ | ⟨x, -, hx, he⟩ | ⟨hf, -, he⟩
  · rw [he]
    exact ⟨hfits, hrec⟩
  · rw [he]
    exact ⟨hfits, Regs.recordsTruly_of_violation rfl rfl
      ((Regs.violation?_congr i rfl rfl rfl rfl).trans hx)⟩
  · rw [he]
    exact ⟨hfits, Regs.recordsTruly_of_clear hf (hrec.cause_eq_zero hf) fun _ => ⟨i, rfl⟩⟩

theorem Regs.Inv_illegal {c : Config} {r : Regs} (h : r.Inv c) {w : Word} {e : DecodeError}
    (he : decode w = .error e) : (r.illegal w).Inv c := by
  simp only [Regs.illegal]
  split
  · exact h
  · exact ⟨h.1, Regs.recordsTruly_of_illegal rfl he⟩

theorem Regs.Inv_write {c : Config} {r : Regs} (h : r.Inv c) (reg : Nat) (v : Word) :
    (r.write c reg v).Inv c := by
  obtain ⟨⟨hb, hl, hp⟩, hrec⟩ := h
  simp only [Regs.write]
  split
  · exact ⟨⟨hb, hl, hp⟩, hrec⟩
  · rename_i hf
    have hf : r.status.fault = false := by simpa using hf
    have keep : ∀ r' : Regs, r'.status = r.status → r'.cmd = r.cmd → r'.recordsTruly c := by
      intro r' hs hc
      exact Regs.recordsTruly_of_clear (hs ▸ hf) (hs ▸ hrec.cause_eq_zero hf)
        fun hd => hc ▸ hrec.cmd_of_done hf (hs ▸ hd)
    have blkWord : ∀ k, (r.withBlkWord k v).Inv c := fun k =>
      ⟨⟨hb, hl, hp⟩, keep _ (Regs.withBlkWord_status r k v) (Regs.withBlkWord_cmd r k v)⟩
    split
    · exact ⟨⟨truncAw_lt c v, hl, hp⟩, keep _ rfl rfl⟩
    · exact ⟨⟨hb, truncAw_lt c v, hp⟩, keep _ rfl rfl⟩
    · exact ⟨⟨hb, hl, truncAw_lt c v⟩, keep _ rfl rfl⟩
    · exact ⟨⟨hb, hl, hp⟩, keep { r with blkCnt := v.setWidth 5 } rfl rfl⟩
    · exact blkWord 0
    · exact blkWord 1
    · exact blkWord 2
    · exact blkWord 3
    · exact ⟨⟨hb, hl, hp⟩, hrec⟩

/-! ## The stores of a command are inside the address space -/

theorem Regs.execute_stores_lt {c : Config} {r : Regs} {i : Instr} {st : Store}
    (h : st ∈ (r.execute c i (recipe i r)).stores) : st.1 < c.space := by
  rcases Regs.execute_cases c r i (recipe i r) with ⟨-, he⟩ | ⟨x, -, -, he⟩ | ⟨-, hv, he⟩
  · rw [he] at h
    cases h
  · rw [he] at h
    cases h
  · rw [he] at h
    exact (recipe_in_region hv h).2.2

end Sys2Proof.Machine
end

