-- ==== Sys2Proof/Laws/Cores.lean ====
section
/-! SUPPORT. Several instances (R64, R224): what a word written to `CMD` does to one instance, and
what a group of commands that run together does and keeps. -/

namespace Sys2Proof.Machine

/-- `Execute(w)` on one instance: a command, or an illegal word. -/
theorem wordResult_cases (w : Word) (c : Config) (r : Regs) :
    (∃ i, decode w = .ok i ∧ wordResult w c r = r.execute c i (recipe i r)) ∨
    (∃ e, decode w = .error e ∧ wordResult w c r = ⟨r.illegal w, []⟩) := by
  rw [wordResult]
  cases h : decode w with
  | ok i => exact .inl ⟨i, rfl, commandResult_eq i c r⟩
  | error e => exact .inr ⟨e, rfl, rfl⟩

theorem Regs.Inv_wordResult {c : Config} {r : Regs} (h : r.Inv c) (w : Word) :
    (wordResult w c r).regs.Inv c := by
  rcases wordResult_cases w c r with ⟨i, -, he⟩ | ⟨e, hd, he⟩
  · rw [he]
    exact Regs.Inv_execute h i _
  · rw [he]
    exact Regs.Inv_illegal h hd

theorem wordResult_stores_lt {w : Word} {c : Config} {r : Regs} {st : Store}
    (h : st ∈ (wordResult w c r).stores) : st.1 < c.space := by
  rcases wordResult_cases w c r with ⟨i, -, he⟩ | ⟨e, -, he⟩
  · exact Regs.execute_stores_lt (he ▸ h)
  · rw [he] at h
    cases h

/-- A halted instance ignores every word written to its `CMD` (R218). -/
theorem wordResult_halted {c : Config} {r : Regs} (h : r.status.fault = true) (w : Word) :
    wordResult w c r = ⟨r, []⟩ := by
  rcases wordResult_cases w c r with ⟨i, -, he⟩ | ⟨e, -, he⟩
  · rw [he, Regs.execute_halted h]
  · rw [he]
    simp [Regs.illegal, Regs.halted, h]

/-- The addressed instance's command, written to `CMD`, is what `exec` runs. -/
theorem exec_eq_wordResult {w : Word} {i : Instr} (h : decode w = .ok i) (s : State) :
    exec i s = .next (s.commit (wordResult w s.cfg s.regs)) := by
  rw [exec_eq, wordResult, h]

/-! ## Groups -/

section
variable (s : State) (taken : List Nat) (k : Nat) (res : CmdResult)
@[simp] theorem State.commitRacing_cfg : (s.commitRacing taken k res).cfg = s.cfg := by
  simp [State.commitRacing]
@[simp] theorem State.commitRacing_dst : (s.commitRacing taken k res).dst =
    Memory.storeRacing s.dst s.fresh taken res.stores := rfl
@[simp] theorem State.commitRacing_fresh :
    (s.commitRacing taken k res).fresh = s.fresh + 1 := rfl
@[simp] theorem State.commitRacing_host : (s.commitRacing taken k res).host = s.host := by
  simp [State.commitRacing]
@[simp] theorem State.commitRacing_rdata : (s.commitRacing taken k res).rdata = s.rdata := by
  simp [State.commitRacing]
@[simp] theorem State.commitRacing_others_length :
    (s.commitRacing taken k res).others.length = s.others.length := by
  simp [State.commitRacing]
end

/-- An instance is one of the build's. -/
theorem State.core?_lt {s : State} {k : Nat} {r : Regs} (h : s.core? k = some r) :
    k < s.ninst := by
  cases k with
  | zero => simp [State.ninst]
  | succ k =>
    have hlt : k < s.others.length := (List.getElem?_eq_some_iff.1 h).1
    simp only [State.ninst]
    omega

/-- A racing command's instance has the registers of its result. -/
theorem State.core?_commitRacing_same {s : State} {k : Nat} {r : Regs} (h : s.core? k = some r)
    (taken : List Nat) (res : CmdResult) :
    (s.commitRacing taken k res).core? k = some res.regs := by
  cases k with
  | zero => rfl
  | succ k =>
    have hlt : k < s.others.length := (List.getElem?_eq_some_iff.1 h).1
    simp [State.core?, State.commitRacing, State.setCore, hlt]

/-- Every other instance keeps its registers (R224). -/
theorem State.core?_commitRacing_other {s : State} {k n : Nat} (h : n ≠ k) (taken : List Nat)
    (res : CmdResult) : (s.commitRacing taken k res).core? n = s.core? n := by
  cases k with
  | zero =>
    cases n with
    | zero => exact absurd rfl h
    | succ n => rfl
  | succ k =>
    cases n with
    | zero => rfl
    | succ n => exact List.getElem?_set_ne (by omega)

theorem State.runTogether_cons {s : State} {k : Nat} {w : Word} {r : Regs}
    (h : s.core? k = some r) (taken : List Nat) (rest : List (Nat × Word)) :
    s.runTogether taken ((k, w) :: rest) =
      (s.commitRacing taken k (wordResult w s.cfg r)).runTogether
        (taken ++ (wordResult w s.cfg r).stores.map Prod.fst) rest := by
  simp only [State.runTogether, h]

/-- A group changes registers of instances, `DST` and the draw counter, nothing else. -/
theorem State.runTogether_frame (s : State) (taken : List Nat) (cmds : List (Nat × Word)) :
    (s.runTogether taken cmds).cfg = s.cfg ∧
      (s.runTogether taken cmds).others.length = s.others.length ∧
      (s.runTogether taken cmds).host = s.host ∧
      (s.runTogether taken cmds).rdata = s.rdata := by
  induction cmds generalizing s taken with
  | nil => exact ⟨rfl, rfl, rfl, rfl⟩
  | cons kw rest ih =>
    obtain ⟨k, w⟩ := kw
    simp only [State.runTogether]
    split
    · exact ih s taken
    · rename_i r _
      have h := ih (s.commitRacing taken k (wordResult w s.cfg r))
        (taken ++ (wordResult w s.cfg r).stores.map Prod.fst)
      simpa only [State.commitRacing_cfg, State.commitRacing_others_length,
        State.commitRacing_host, State.commitRacing_rdata] using h

/-- A halted instance keeps its registers through a group (R218). -/
theorem State.runTogether_regs_halted {s : State} (h : s.regs.status.fault = true)
    (taken : List Nat) (cmds : List (Nat × Word)) :
    (s.runTogether taken cmds).regs = s.regs := by
  induction cmds generalizing s taken with
  | nil => rfl
  | cons kw rest ih =>
    obtain ⟨k, w⟩ := kw
    simp only [State.runTogether]
    split
    · exact ih h taken
    · rename_i r hr
      have hregs : (s.commitRacing taken k (wordResult w s.cfg r)).regs = s.regs := by
        cases k with
        | zero =>
          obtain rfl : s.regs = r := by simpa [State.core?] using hr
          simp [State.commitRacing, State.setCore, wordResult_halted h]
        | succ k => rfl
      rw [ih (by rw [hregs]; exact h), hregs]

/-- An instance's registers are those of an instance with the invariant. -/
theorem State.Inv.core {s : State} (h : s.Inv) {k : Nat} {r : Regs} (hr : s.core? k = some r) :
    r.Inv s.cfg := by
  cases k with
  | zero =>
    obtain rfl : s.regs = r := by simpa [State.core?] using hr
    exact h.2.1
  | succ k => exact h.2.2.1 r (List.mem_of_getElem? hr)

/-- Replacing an instance's registers by ones in order keeps every instance in order. -/
theorem State.Inv_setCore {s : State} (h : s.Inv) (k : Nat) {r : Regs} (hr : r.Inv s.cfg) :
    (s.setCore k r).Inv := by
  obtain ⟨hl, hregs, hothers, hm⟩ := h
  cases k with
  | zero => exact ⟨hl, hr, hothers, hm⟩
  | succ k =>
    refine ⟨hl, hregs, fun x hx => ?_, hm⟩
    rcases List.mem_or_eq_of_mem_set hx with hx | rfl
    · exact hothers x hx
    · exact hr

/-- New contents of `DST` in canonical form and inside the space keep the invariant. -/
theorem State.Inv_withDst {s : State} (h : s.Inv) {m : Memory} (hwf : Memory.wf m)
    (hin : Memory.within m s.cfg.space) : ({ s with dst := m } : State).Inv :=
  ⟨h.1, h.2.1, h.2.2.1, hwf, hin⟩

/-- The invariant does not look at the host's list, the read data or the draw counter. -/
theorem State.Inv_of_eq {s t : State} (h : s.Inv) (hc : t.cfg = s.cfg) (hr : t.regs = s.regs)
    (ho : t.others = s.others) (hd : t.dst = s.dst) : t.Inv := by
  simpa only [State.Inv, hc, hr, ho, hd] using h

theorem State.Inv_runTogether {s : State} (h : s.Inv) (taken : List Nat)
    (cmds : List (Nat × Word)) : (s.runTogether taken cmds).Inv := by
  induction cmds generalizing s taken with
  | nil => exact h
  | cons kw rest ih =>
    obtain ⟨k, w⟩ := kw
    simp only [State.runTogether]
    split
    · exact ih h taken
    · rename_i r hr
      obtain ⟨hcfg, hregs, hothers, -⟩ :=
        State.Inv_setCore h k (Regs.Inv_wordResult (h.core hr) w)
      refine ih (s := s.commitRacing taken k (wordResult w s.cfg r))
        ⟨hcfg, hregs, hothers, Memory.wf_storeRacing h.2.2.2.1 _ _ _, ?_⟩ _
      rw [State.commitRacing_cfg]
      exact Memory.within_storeRacing h.2.2.2.2 _ _ fun st hst => wordResult_stores_lt hst

end Sys2Proof.Machine
end

