-- ==== Sys2Proof/Laws/PerInstr.lean ====
section
/-! SUPPORT. Statements about every command, one lemma for each constructor of `Instr`. -/

namespace Sys2Proof.Laws.EncodedWord

/-- The command is well formed, its word is legal by R24's column, and bits [31:4] of it are 0
(R81). -/
def Statement (i : Instr) : Prop :=
  i.wf = true ∧ cmdWordLegal (encode i) = true ∧ (encode i).toNat < 16

theorem dcolor : Statement .dcolor := by unfold Statement; decide
theorem dcolorp : Statement .dcolorp := by unfold Statement; decide
theorem dsharp : Statement .dsharp := by unfold Statement; decide
theorem dsmooth : Statement .dsmooth := by unfold Statement; decide
theorem dmono : Statement .dmono := by unfold Statement; decide
theorem ddual : Statement .ddual := by unfold Statement; decide

end Sys2Proof.Laws.EncodedWord
end

