-- ==== Sys2Proof/Laws/Step.lean ====
section
/-! SUPPORT. One step, by the host's next access: `step` as the access gives it, and everything a
step can do. -/

namespace Sys2Proof.Machine

theorem HostOp.command?_eq_some {op : HostOp} {w : Word} :
    op.command? = some w ↔ op = .wr regCmd w := by
  cases op <;> simp [HostOp.command?]

theorem step_idle {s : State} (h : s.host = []) : step s = .next s := by
  simp [step, h]

/-- A write of a command word to `CMD` runs the command (R185). -/
theorem step_command {s : State} {w : Word} {i : Instr} {rest : List HostOp}
    (h : s.host = .wr regCmd w :: rest) (hd : decode w = .ok i) :
    step s = exec i s.popHost := by
  simp [step, h, HostOp.command?, hd]

/-- A write of any other word to `CMD` (R83, R211). -/
theorem step_illegal {s : State} {w : Word} {e : DecodeError} {rest : List HostOp}
    (h : s.host = .wr regCmd w :: rest) (hd : decode w = .error e) :
    step s = .next (s.popHost.illegalCommand w) := by
  simp [step, h, HostOp.command?, hd]

/-- Any other access. -/
theorem step_access {s : State} {op : HostOp} {rest : List HostOp} (h : s.host = op :: rest)
    (hop : ∀ w, op ≠ .wr regCmd w) : step s = s.popHost.access op := by
  have : op.command? = none := by
    cases hc : op.command? with
    | none => rfl
    | some w => exact absurd (HostOp.command?_eq_some.1 hc) (hop w)
  simp [step, h, this]

/-- The reset event (R240). -/
theorem step_reset {s : State} {rest : List HostOp} (h : s.host = .reset :: rest) :
    step s = .next s.popHost.resetEvent :=
  step_access h (by simp)

/-- A step runs the command in front of it and takes it off the list. -/
theorem step_withFetchWord (s : State) (nbits w : Nat) {i : Instr}
    (hd : decodeTableWord nbits w = some i) : step (s.withFetchWord nbits w) = exec i s := by
  have hd' : decode (BitVec.ofNat 32 (w % 2 ^ nbits)) = .ok i := by
    rw [decodeTableWord] at hd
    split at hd
    · rename_i j hj
      rw [hj, Option.some.inj hd]
    · cases hd
  rw [step_command rfl hd']
  rfl

/-! ## Everything an access can do -/

theorem State.access_cases {s t : State} {op : HostOp} (h : s.access op = .next t) :
    (∃ reg v, op = .wr reg v ∧ t = { s with regs := s.regs.write s.cfg reg v }) ∨
    (∃ reg, op = .rd reg ∧ t = { s with rdata := s.regs.read reg }) ∨
    (op = .reset ∧ t = s.resetEvent) ∨
    (∃ a bytes, op = .mem a bytes ∧ a + bytes.length ≤ s.cfg.space ∧
      t = { s with dst := Memory.storeAll s.dst (consecutive a bytes) }) ∨
    (∃ a, op = .load a ∧ a < s.cfg.space ∧
      t = { s with rdata := (Memory.byte s.dst a).setWidth 32 }) ∨
    (∃ k r, op = .select k ∧ s.others[k]? = some r ∧
      t = { s with regs := r, others := s.others.set k s.regs }) ∨
    (∃ cmds, op = .together cmds ∧ (∀ kw ∈ cmds, kw.1 < s.ninst) ∧
      (cmds.map Prod.fst).Nodup ∧ t = s.runTogether [] cmds) := by
  cases op with
  | wr reg v =>
    cases h
    exact .inl ⟨reg, v, rfl, rfl⟩
  | rd reg =>
    cases h
    exact .inr (.inl ⟨reg, rfl, rfl⟩)
  | reset =>
    cases h
    exact .inr (.inr (.inl ⟨rfl, rfl⟩))
  | mem a bytes =>
    simp only [State.access, State.hostStore] at h
    split at h
    · rename_i ha
      cases h
      exact .inr (.inr (.inr (.inl ⟨a, bytes, rfl, ha, rfl⟩)))
    · cases h
  | load a =>
    simp only [State.access, State.hostLoad] at h
    split at h
    · rename_i ha
      cases h
      exact .inr (.inr (.inr (.inr (.inl ⟨a, rfl, ha, rfl⟩))))
    · cases h
  | select k =>
    simp only [State.access, State.select] at h
    split at h
    · rename_i r hr
      cases h
      exact .inr (.inr (.inr (.inr (.inr (.inl ⟨k, r, rfl, hr, rfl⟩)))))
    · cases h
  | together cmds =>
    simp only [State.access, State.together] at h
    split at h
    · rename_i hall
      split at h
      · rename_i hnd
        cases h
        exact .inr (.inr (.inr (.inr (.inr (.inr
          ⟨cmds, rfl, by simpa using hall, hnd, rfl⟩)))))
      · cases h
    · cases h

/-- Everything a step can do: nothing, a command, an illegal word, or another access. -/
theorem step_cases {s t : State} (h : step s = .next t) :
    (s.host = [] ∧ t = s) ∨
    (∃ w rest i, s.host = .wr regCmd w :: rest ∧ decode w = .ok i ∧
      exec i s.popHost = .next t) ∨
    (∃ w rest e, s.host = .wr regCmd w :: rest ∧ decode w = .error e ∧
      t = s.popHost.illegalCommand w) ∨
    (∃ op rest, s.host = op :: rest ∧ (∀ w, op ≠ .wr regCmd w) ∧
      s.popHost.access op = .next t) := by
  cases hh : s.host with
  | nil =>
    rw [step_idle hh] at h
    cases h
    exact .inl ⟨rfl, rfl⟩
  | cons op rest =>
    cases hc : op.command? with
    | some w =>
      obtain rfl := HostOp.command?_eq_some.1 hc
      cases hd : decode w with
      | ok i =>
        rw [step_command hh hd] at h
        exact .inr (.inl ⟨w, rest, i, rfl, hd, h⟩)
      | error e =>
        rw [step_illegal hh hd] at h
        cases h
        exact .inr (.inr (.inl ⟨w, rest, e, rfl, hd, rfl⟩))
    | none =>
      have hop : ∀ w, op ≠ .wr regCmd w := fun w he => by
        rw [HostOp.command?_eq_some.2 he] at hc
        cases hc
      rw [step_access hh hop] at h
      exact .inr (.inr (.inr ⟨op, rest, rfl, hop, h⟩))

/-! ## Small facts about accesses -/

theorem mem_consecutive {a : Nat} {bytes : List Byte} {st : Store}
    (h : st ∈ consecutive a bytes) : a ≤ st.1 ∧ st.1 < a + bytes.length := by
  induction bytes generalizing a with
  | nil => cases h
  | cons v rest ih =>
    simp only [consecutive, List.mem_cons] at h
    rcases h with rfl | h
    · simp
    · have := ih h
      simp only [List.length_cons]
      omega

/-- R33(c), R218: a halted instance ignores every register write. -/
theorem Regs.write_halted {c : Config} {r : Regs} (h : r.status.fault = true) (reg : Nat)
    (v : Word) : r.write c reg v = r := by
  simp [Regs.write, Regs.halted, h]

/-- R24, R211: an illegal word on a core that is not halted. -/
theorem Regs.illegal_running {r : Regs} (h : r.status.fault = false) (w : Word) :
    r.illegal w = { r with cmd := w, status := Status.raised .illegalCommand } := by
  simp [Regs.illegal, Regs.halted, h, Regs.raise]

theorem Regs.illegal_halted {r : Regs} (h : r.status.fault = true) (w : Word) :
    r.illegal w = r := by
  simp [Regs.illegal, Regs.halted, h]

end Sys2Proof.Machine
end

