-- ==== Sys2Proof/Laws/Registers.lean ====
section
/-! SUPPORT. Register accesses (R21, R22, R25, R26, R33, R80), one lemma per register number, and the
word view of `BLK`. -/

namespace Sys2Proof.Machine

/-! ## One step of the host's -/

/-- A write of a register other than `CMD`. -/
theorem step_write {s : State} {reg : Nat} {v : Word} {rest : List HostOp}
    (h : s.host = .wr reg v :: rest) (hreg : reg ≠ regCmd) :
    step s = .next (s.popHost.hostWrite reg v) := by
  rw [step_access h (by rintro w ⟨⟩; exact hreg rfl)]
  rfl

/-- A read of a register. -/
theorem step_read {s : State} {reg : Nat} {rest : List HostOp} (h : s.host = .rd reg :: rest) :
    step s = .next (s.popHost.hostRead reg) := by
  rw [step_access h (by simp)]
  rfl

/-! ## Writes by register number, on a core that is not halted -/

section
variable {c : Config} {r : Regs} (h : r.status.fault = false) (v : Word)
include h

theorem Regs.write_dstBase :
    r.write c regDstBase v = { r with dstBase := truncAw c v } := by
  simp [Regs.write, regDstBase, h]

theorem Regs.write_dstLen : r.write c regDstLen v = { r with dstLen := truncAw c v } := by
  simp [Regs.write, regDstLen, h]

theorem Regs.write_pitch : r.write c regPitch v = { r with pitch := truncAw c v } := by
  simp [Regs.write, regPitch, h]

theorem Regs.write_blkCnt : r.write c regBlkCnt v = { r with blkCnt := v.setWidth 5 } := by
  simp [Regs.write, regBlkCnt, h]

theorem Regs.write_blkWord (k : Fin 4) :
    r.write c (regBlkW0 + k.val) v = r.withBlkWord k v := by
  have hne : ¬ r.halted = true := by simpa using h
  unfold Regs.write
  rw [if_neg hne]
  fin_cases k <;> rfl

end

/-- A register write that is not of `CMD` does not touch `STATUS`. -/
@[simp] theorem Regs.write_status (c : Config) (r : Regs) (reg : Nat) (v : Word) :
    (r.write c reg v).status = r.status := by
  unfold Regs.write
  split
  · rfl
  · split <;> rfl

/-- R33(b): a write of a number that names no register, or of `STATUS`, changes nothing. -/
theorem Regs.write_ignored {c : Config} {r : Regs} {reg : Nat} (v : Word)
    (h : reg = regStatus ∨ reg = 0x06 ∨ reg = 0x07 ∨ regBlkW3 < reg) : r.write c reg v = r := by
  have h' : reg = 1 ∨ reg = 6 ∨ reg = 7 ∨ 11 < reg := h
  unfold Regs.write
  split
  · rfl
  · split <;> first | rfl | omega

/-! ## Reads -/

theorem Regs.read_blkWord (r : Regs) (k : Fin 4) : r.read (regBlkW0 + k.val) = r.blkWord k := by
  fin_cases k <;> rfl

/-- R33(b): a number that names no register reads 0. -/
theorem Regs.read_unassigned {r : Regs} {reg : Nat}
    (h : reg = 0x06 ∨ reg = 0x07 ∨ regBlkW3 < reg) : r.read reg = 0 := by
  have h' : reg = 6 ∨ reg = 7 ∨ 11 < reg := h
  unfold Regs.read
  split <;> first | rfl | omega

/-- R22: `BLK_CNT` reads zero-extended. -/
theorem Regs.read_blkCnt_toNat (r : Regs) : (r.read regBlkCnt).toNat = r.blkCnt.toNat := by
  have := r.blkCnt.isLt
  simp only [Regs.read, BitVec.toNat_setWidth]
  omega

/-! ## The word view of `BLK` (R21) -/

/-- Byte `j` of a word as a number. -/
theorem extractLsb'_byte (v : Word) (j : Nat) :
    v.extractLsb' (8 * j) 8 = BitVec.ofNat 8 (v.toNat / 256 ^ j) := by
  apply BitVec.eq_of_toNat_eq
  rw [BitVec.extractLsb'_toNat, BitVec.toNat_ofNat, Nat.shiftRight_eq_div_pow, Nat.pow_mul]

/-- R10, R21: a packed word as a number. -/
theorem packWord_toNat (v0 v1 v2 v3 : Byte) :
    (packWord v0 v1 v2 v3).toNat =
      v0.toNat + 2 ^ 8 * v1.toNat + 2 ^ 16 * v2.toNat + 2 ^ 24 * v3.toNat := by
  have h0 := v0.isLt
  have h1 := v1.isLt
  have h2 := v2.isLt
  have h3 := v3.isLt
  simp only [packWord, BitVec.toNat_append]
  rw [← Nat.shiftLeft_add_eq_or_of_lt h0, ← Nat.shiftLeft_add_eq_or_of_lt h1,
    ← Nat.shiftLeft_add_eq_or_of_lt h2]
  simp only [Nat.shiftLeft_eq]
  omega

/-- The four bytes of a word packed again. -/
theorem packWord_bytes (v : Word) :
    packWord (v.extractLsb' 0 8) (v.extractLsb' 8 8) (v.extractLsb' 16 8)
      (v.extractLsb' 24 8) = v := by
  apply BitVec.eq_of_toNat_eq
  have := v.isLt
  simp only [packWord_toNat, BitVec.extractLsb'_toNat, Nat.shiftRight_eq_div_pow]
  omega

/-- R21: a read of `BLKWk` returns what a write of it has put there. -/
theorem Regs.blkWord_withBlkWord (r : Regs) (k : Fin 4) (v : Word) :
    (r.withBlkWord k v).blkWord k = v := by
  have hk := k.isLt
  have e : ∀ j, j < 4 → (4 * k.val + j) / 4 = k.val ∧ (4 * k.val + j) % 4 = j := by omega
  have e0 : 4 * k.val / 4 = k.val ∧ 4 * k.val % 4 = 0 := by omega
  rw [Regs.blkWord]
  simp only [Regs.withBlkWord_blk]
  simp [e0.1, e0.2, (e 1 (by decide)).1, (e 1 (by decide)).2, (e 2 (by decide)).1,
    (e 2 (by decide)).2, (e 3 (by decide)).1, (e 3 (by decide)).2, packWord_bytes]

/-! ## `STATUS` (R25) -/

/-- `STATUS` as a number: `DONE` + 2·`FAULT` + 16·`CAUSE`. -/
theorem Status.word_toNat (st : Status) :
    st.word.toNat =
      (if st.done then 1 else 0) + (if st.fault then 2 else 0) + 16 * st.cause.toNat := by
  obtain ⟨d, f, c⟩ := st
  revert d f c
  decide

end Sys2Proof.Machine
end

