-- ==== Sys2Proof/Laws/Script.lean ====
section
/-! SUPPORT. The small lemmas of host scripts (R91, R92): the pair of each access, which accesses write
`CMD`, and the expansion of each pseudo-instruction. -/

namespace Sys2Proof.Machine

@[simp] theorem HostOp.valuePair?_wr (reg : Nat) (v : Word) :
    (HostOp.wr reg v).valuePair? = some (reg, v) := rfl
@[simp] theorem HostOp.valuePair?_rd (reg : Nat) : (HostOp.rd reg).valuePair? = none := rfl

@[simp] theorem scriptPairs_nil : scriptPairs [] = [] := rfl
@[simp] theorem scriptPairs_wr (reg : Nat) (v : Word) (l : List HostOp) :
    scriptPairs (.wr reg v :: l) = (reg, v) :: scriptPairs l := by simp [scriptPairs]
@[simp] theorem scriptPairs_append (l₁ l₂ : List HostOp) :
    scriptPairs (l₁ ++ l₂) = scriptPairs l₁ ++ scriptPairs l₂ := by
  simp [scriptPairs, List.filterMap_append]

/-- An access that does not write `CMD` is no `WR` of it, and a group only if it is empty. -/
theorem HostOp.writesCmd_eq_false {op : HostOp} : op.writesCmd = false ↔
    (∀ w, op ≠ .wr regCmd w) ∧ ∀ cmds, op = .together cmds → cmds = [] := by
  cases op <;> simp [HostOp.writesCmd]

@[simp] theorem Pseudo.expand_dst (base len pitch : Word) : (Pseudo.dst base len pitch).expand =
    [.wr regDstBase base, .wr regDstLen len, .wr regPitch pitch] := rfl
@[simp] theorem Pseudo.expand_command (i : Instr) :
    (Pseudo.command i).expand = [.wr regCmd (encode i)] := rfl
@[simp] theorem Pseudo.expand_wait : Pseudo.wait.expand = [.rd regStatus] := rfl

end Sys2Proof.Machine
end

