-- ==== Sys2Proof/Laws/Values.lean ====
section
/-! SUPPORT. The values of the units as numbers: every byte a rule computes is below 256, so that
narrowing cuts nothing off (R9, R13), and the fields of a block by its bytes. -/

namespace Sys2Proof.Machine

theorem byteOf_toNat {n : Nat} (h : n < 256) : (byteOf n).toNat = n := by
  simp [byteOf, Nat.mod_eq_of_lt h]

/-! ## The six functions (R13) -/

theorem expand5_eq (v : Nat) : expand5 v = (v * 527 + 23) / 64 := by
  simp [expand5, Nat.shiftRight_eq_div_pow]

theorem expand6_eq (v : Nat) : expand6 v = (v * 259 + 33) / 64 := by
  simp [expand6, Nat.shiftRight_eq_div_pow]

theorem third5_eq (s : Nat) : third5 s = (s * 351 + 61) / 128 := by
  simp [third5, Nat.shiftRight_eq_div_pow]

theorem third6_eq (s : Nat) : third6 s = (s * 2763 + 1039) / 2048 := by
  simp [third6, Nat.shiftRight_eq_div_pow]

theorem half5_eq (s : Nat) : half5 s = (s * 1053 + 125) / 256 := by
  simp [half5, Nat.shiftRight_eq_div_pow]

theorem half6_eq (s : Nat) : half6 s = (s * 4145 + 1019) / 2048 := by
  simp [half6, Nat.shiftRight_eq_div_pow]

/-- R13: the ranges of the six functions on their domains. -/
theorem expand5_lt {v : Nat} (h : v ≤ 31) : expand5 v < 256 := by rw [expand5_eq]; omega
theorem expand6_lt {v : Nat} (h : v ≤ 63) : expand6 v < 256 := by rw [expand6_eq]; omega
theorem third5_lt {s : Nat} (h : s ≤ 93) : third5 s < 256 := by rw [third5_eq]; omega
theorem third6_lt {s : Nat} (h : s ≤ 189) : third6 s < 256 := by rw [third6_eq]; omega
theorem half5_lt {s : Nat} (h : s ≤ 62) : half5 s < 256 := by rw [half5_eq]; omega
theorem half6_lt {s : Nat} (h : s ≤ 126) : half6 s < 256 := by rw [half6_eq]; omega

/-- R115's corner case: a flat block stays flat. -/
theorem third5_triple : ∀ x ≤ 31, third5 (3 * x) = expand5 x := by decide
theorem third6_triple : ∀ x ≤ 63, third6 (3 * x) = expand6 x := by decide

/-- R117's corner case. -/
theorem half5_double : ∀ x ≤ 31, half5 (2 * x) = expand5 x := by decide
theorem half6_double : ∀ x ≤ 63, half6 (2 * x) = expand6 x := by decide

/-! ## Reference colours (R85, R112) -/

theorem unpack565_r (c : Nat) : (unpack565 c).r = c / 2048 % 32 := by simp [unpack565, bits_eq]
theorem unpack565_g (c : Nat) : (unpack565 c).g = c / 32 % 64 := by simp [unpack565, bits_eq]
theorem unpack565_b (c : Nat) : (unpack565 c).b = c % 32 := by simp [unpack565, bits_eq]

theorem unpack565_r_le (c : Nat) : (unpack565 c).r ≤ 31 := by rw [unpack565_r]; omega
theorem unpack565_g_le (c : Nat) : (unpack565 c).g ≤ 63 := by rw [unpack565_g]; omega
theorem unpack565_b_le (c : Nat) : (unpack565 c).b ≤ 31 := by rw [unpack565_b]; omega

/-! ## Palette entries as numbers -/

/-- R113. -/
theorem expanded_toNat (x : Nat) :
    (expanded (unpack565 x)).r.toNat = (x / 2048 % 32 * 527 + 23) / 64 ∧
      (expanded (unpack565 x)).g.toNat = (x / 32 % 64 * 259 + 33) / 64 ∧
      (expanded (unpack565 x)).b.toNat = (x % 32 * 527 + 23) / 64 := by
  refine ⟨?_, ?_, ?_⟩
  · rw [expanded, byteOf_toNat (expand5_lt (unpack565_r_le x)), expand5_eq, unpack565_r]
  · rw [expanded, byteOf_toNat (expand6_lt (unpack565_g_le x)), expand6_eq, unpack565_g]
  · rw [expanded, byteOf_toNat (expand5_lt (unpack565_b_le x)), expand5_eq, unpack565_b]

/-- R115. -/
theorem twoThirds_toNat (x y : Nat) :
    (twoThirds (unpack565 x) (unpack565 y)).r.toNat =
        ((2 * (x / 2048 % 32) + y / 2048 % 32) * 351 + 61) / 128 ∧
      (twoThirds (unpack565 x) (unpack565 y)).g.toNat =
        ((2 * (x / 32 % 64) + y / 32 % 64) * 2763 + 1039) / 2048 ∧
      (twoThirds (unpack565 x) (unpack565 y)).b.toNat =
        ((2 * (x % 32) + y % 32) * 351 + 61) / 128 := by
  have hr : 2 * (unpack565 x).r + (unpack565 y).r ≤ 93 := by
    have := unpack565_r_le x; have := unpack565_r_le y; omega
  have hg : 2 * (unpack565 x).g + (unpack565 y).g ≤ 189 := by
    have := unpack565_g_le x; have := unpack565_g_le y; omega
  have hb : 2 * (unpack565 x).b + (unpack565 y).b ≤ 93 := by
    have := unpack565_b_le x; have := unpack565_b_le y; omega
  refine ⟨?_, ?_, ?_⟩
  · rw [twoThirds, byteOf_toNat (third5_lt hr), third5_eq, unpack565_r, unpack565_r]
  · rw [twoThirds, byteOf_toNat (third6_lt hg), third6_eq, unpack565_g, unpack565_g]
  · rw [twoThirds, byteOf_toNat (third5_lt hb), third5_eq, unpack565_b, unpack565_b]

/-- R117. -/
theorem halfMix_toNat (x y : Nat) :
    (halfMix (unpack565 x) (unpack565 y)).r.toNat =
        ((x / 2048 % 32 + y / 2048 % 32) * 1053 + 125) / 256 ∧
      (halfMix (unpack565 x) (unpack565 y)).g.toNat =
        ((x / 32 % 64 + y / 32 % 64) * 4145 + 1019) / 2048 ∧
      (halfMix (unpack565 x) (unpack565 y)).b.toNat =
        ((x % 32 + y % 32) * 1053 + 125) / 256 := by
  have hr : (unpack565 x).r + (unpack565 y).r ≤ 62 := by
    have := unpack565_r_le x; have := unpack565_r_le y; omega
  have hg : (unpack565 x).g + (unpack565 y).g ≤ 126 := by
    have := unpack565_g_le x; have := unpack565_g_le y; omega
  have hb : (unpack565 x).b + (unpack565 y).b ≤ 62 := by
    have := unpack565_b_le x; have := unpack565_b_le y; omega
  refine ⟨?_, ?_, ?_⟩
  · rw [halfMix, byteOf_toNat (half5_lt hr), half5_eq, unpack565_r, unpack565_r]
  · rw [halfMix, byteOf_toNat (half6_lt hg), half6_eq, unpack565_g, unpack565_g]
  · rw [halfMix, byteOf_toNat (half5_lt hb), half5_eq, unpack565_b, unpack565_b]

/-! ## The two palettes by mode -/

/-- R113, R115. -/
theorem colourPalette_four {c0 c1 : Nat} {o : Bool} (h : c1 < c0 ∨ o = true) :
    colourPalette c0 c1 o =
      #v[expanded (unpack565 c0), expanded (unpack565 c1),
        twoThirds (unpack565 c0) (unpack565 c1), twoThirds (unpack565 c1) (unpack565 c0)] := by
  have : fourColour c0 c1 o = true := by simpa [fourColour] using h
  simp [colourPalette, this]

/-- R113, R117. -/
theorem colourPalette_three {c0 c1 : Nat} (h : c0 ≤ c1) :
    colourPalette c0 c1 false =
      #v[expanded (unpack565 c0), expanded (unpack565 c1),
        halfMix (unpack565 c0) (unpack565 c1), transparentBlack] := by
  have : fourColour c0 c1 false = false := by simpa [fourColour] using h
  simp [colourPalette, this]

/-- R121: in four-colour mode every entry is opaque. -/
theorem colourPalette_four_alpha {c0 c1 : Nat} {o : Bool} (h : c1 < c0 ∨ o = true) (i : Fin 4) :
    ((colourPalette c0 c1 o).get i).a = 0xFF := by
  rw [colourPalette_four h]
  fin_cases i <;> rfl

/-- R122: in three-colour mode entry 3 is transparent black and the others are opaque. -/
theorem colourPalette_three_get {c0 c1 : Nat} (h : c0 ≤ c1) (i : Fin 4) :
    (i.val = 3 → (colourPalette c0 c1 false).get i = transparentBlack) ∧
      (i.val ≠ 3 → ((colourPalette c0 c1 false).get i).a = 0xFF) := by
  rw [colourPalette_three h]
  fin_cases i <;> simp [Vector.get, expanded, halfMix]

/-! ## Halves of the block -/

/-- `BLK[0..8]` depends on those bytes alone. -/
theorem Regs.loHalf_congr {r r' : Regs} (h : ∀ j (hj : j < 8), r.blk[j] = r'.blk[j]) :
    r.loHalf = r'.loHalf := by
  simp [Regs.loHalf, h]

/-- `BLK[8..16]` depends on those bytes alone. -/
theorem Regs.hiHalf_congr {r r' : Regs} (h : ∀ j (hj : j < 8), r.blk[8 + j] = r'.blk[8 + j]) :
    r.hiHalf = r'.hiHalf := by
  have h0 := h 0; have h1 := h 1; have h2 := h 2; have h3 := h 3
  have h4 := h 4; have h5 := h 5; have h6 := h 6; have h7 := h 7
  simp only [Nat.reduceAdd, Nat.reduceLT] at h0 h1 h2 h3 h4 h5 h6 h7
  simp [Regs.hiHalf, h0, h1, h2, h3, h4, h5, h6, h7]

/-! ## Fields of a block by its bytes -/

theorem Byte.toNat_lt (v : Byte) : v.toNat < 256 := v.isLt

/-- R88: the endpoints are the first two bytes. -/
theorem endpoint0_eq (b : Block) : endpoint0 b = b[0].toNat := by
  have := b[0].isLt
  simp only [endpoint0, bits_eq, le64]
  omega

theorem endpoint1_eq (b : Block) : endpoint1 b = b[1].toNat := by
  have := b[0].isLt
  have := b[1].isLt
  simp only [endpoint1, bits_eq, le64]
  omega

end Sys2Proof.Machine
end

