-- ==== Sys2Proof/Tests/Slice0.lean ====
section
/-! SUPPORT. Tests: the encodings of R82 and R91, the smoke tests of the well-formedness checks, the
vectors of spec/95_test_vectors.md (cited by their ids), and for each statement of
Certificates/Slice0/Obligations.lean that has hypotheses a state and operands that meet them. -/

namespace Sys2Proof.Tests

open Sys2Proof Sys2Proof.Machine Sys2Proof.Claims

/-! ## Small states -/

/-- Registers with the given block bytes (the rest 0) and operands, no command run yet. -/
def tRegs (bytes : List Byte) (cnt : BitVec 5) (base len pitch : Word) : Regs :=
  { blk := Vector.ofFn fun i => bytes.getD i.val 0
    blkCnt := cnt
    cmd := 0
    status := Status.reset
    dstBase := base
    dstLen := len
    pitch := pitch }

/-- The default build with these registers and `DST` filled with 0xEE from 0 on. -/
def tState (r : Regs) (fill : Nat) : State :=
  { State.reset with regs := r, dst := (List.range fill).map fun a => (a, 0xEE) }

/-- A build with two instances of these registers. -/
def tPair (r r' : Regs) : State := { State.reset with regs := r, others := [r'] }

/-- Whether a step went on and left these bytes in `DST` from `a` on. -/
def leaves (o : Host.Outcome State Fault Refusal) (a : Nat) (bytes : List Byte) : Bool :=
  match o with
  | .next t => decide ((List.range bytes.length).map (fun j => Memory.read t.dst (a + j)) =
      bytes.map some)
  | .fault _ => false
  | .refused _ => false

/-- Whether a step went on to a state with this property. -/
def goesOn (o : Host.Outcome State Fault Refusal) (P : State → Bool) : Bool :=
  match o with
  | .next t => P t
  | .fault _ => false
  | .refused _ => false

/-- `STATUS` after a write of `w` to `CMD` with these operands, and whether nothing was stored: the
rows of 95_test_vectors.md 3.6. -/
def statusAfter (w : Word) (cnt : BitVec 5) (base len pitch : Word) (status : Word)
    (nothing : Bool) : Bool :=
  goesOn (step (hostNext (tState (tRegs [] cnt base len pitch) 0) (.wr 0 w))) fun t =>
    decide (t.regs.status.word = status) && decide (t.regs.cmd = w) &&
      (t.dst.isEmpty == nothing)

/-! ## Encoding (R81, R82, R83) -/

-- The words are the bit patterns of R82's table: 28 zero bits, PT, FMT.
theorem test_decode_dcolor : decode 0b00000000000000000000000000000000#32 = .ok .dcolor := by
  decide
theorem test_decode_dcolorp : decode 0b00000000000000000000000000001000#32 = .ok .dcolorp := by
  decide
theorem test_decode_dsharp : decode 0b00000000000000000000000000000001#32 = .ok .dsharp := by
  decide
theorem test_decode_dsmooth : decode 0b00000000000000000000000000000010#32 = .ok .dsmooth := by
  decide
theorem test_decode_dmono : decode 0b00000000000000000000000000000011#32 = .ok .dmono := by
  decide
theorem test_decode_ddual : decode 0b00000000000000000000000000000100#32 = .ok .ddual := by
  decide

-- 3.6, illegal words, by the three kinds of R83.
theorem test_decode_illegal :
    decode 0x00000005 = .error .formatUnassigned ∧ decode 0x00000007 = .error .formatUnassigned ∧
    decode 0x0000000F = .error .formatUnassigned ∧
    decode 0x00000009 = .error .punchThroughNotAllowed ∧
    decode 0x0000000C = .error .punchThroughNotAllowed ∧
    decode 0x00000010 = .error .reservedBitsSet ∧ decode 0x80000000 = .error .reservedBitsSet := by
  decide

theorem test_table_words : decodeTableWord 32 0x00000008 = some .dcolorp ∧
    decodeTableWord 32 0x00000004 = some .ddual ∧ decodeTableWord 32 0x00000005 = none := by
  decide

theorem test_step_runs_a_placed_word :
    step (State.reset.withFetchWord 32 0x00000004) = exec .ddual State.reset := rfl

-- Program 1: its encoding as (number, value) pairs (R91, R92).
theorem test_program1_pairs :
    scriptPairs ((Pseudo.blk [0xE0, 0x07, 0x00, 0xF8, 0xE4, 0xE4, 0xE4, 0xE4]).expand ++
      (Pseudo.dst 0x1010 112 32).expand ++ (Pseudo.command .dcolorp).expand ++ Pseudo.wait.expand) =
    [(0x08, 0xF80007E0), (0x09, 0xE4E4E4E4), (0x05, 0x00000008), (0x02, 0x00001010),
      (0x03, 0x00000070), (0x04, 0x00000020), (0x00, 0x00000008)] := by decide

-- R91's column of encodings: `WR` and `RD` have one, `RESET` and `MEM` have none.
theorem test_pairs : (HostOp.wr 0x04 16).pair? = some (0x04, some 16) ∧
    (HostOp.rd 0x01).pair? = some (0x01, none) ∧ HostOp.reset.pair? = none ∧
    (HostOp.mem 0 [0xEE]).pair? = none := by decide

/-! ## The well-formedness checks refuse -/

theorem test_wf_refuses_reserved_bits : cmdWordLegal 0x00000010 = false := by decide
theorem test_wf_refuses_fmt5 : cmdWordLegal 0x00000005 = false := by decide
theorem test_wf_refuses_pt_with_fmt1 : cmdWordLegal 0x00000009 = false := by decide
theorem test_wf_accepts_pt_with_fmt0 : cmdWordLegal 0x00000008 = true := by decide
theorem test_wf_refuses_long_blk :
    Pseudo.wf (.blk (List.replicate 17 0)) = false ∧ Pseudo.wf (.blk (List.replicate 16 0)) = true := by
  decide
theorem test_wf_refuses_mem : HostOp.wf Config.standard 1 (.mem 0xFFFFFFFF [0, 0]) = false ∧
    HostOp.wf Config.standard 1 (.mem 0xFFFFFFFF [0]) = true := by decide
theorem test_wf_refuses_load : HostOp.wf Config.standard 1 (.load 0x100000000) = false := by decide
theorem test_wf_refuses_select : HostOp.wf Config.standard 2 (.select 1) = false ∧
    HostOp.wf Config.standard 2 (.select 0) = true := by decide
theorem test_wf_refuses_together :
    HostOp.wf Config.standard 2 (.together [(2, 0)]) = false ∧
    HostOp.wf Config.standard 2 (.together [(1, 0), (1, 3)]) = false ∧
    HostOp.wf Config.standard 2 (.together [(0, 0), (1, 3)]) = true := by decide

/-! ## The fixed-point functions (95_test_vectors.md section 2, whole tables) -/

theorem test_expand5 : (List.range 32).map expand5 =
    [0, 8, 16, 25, 33, 41, 49, 58, 66, 74, 82, 90, 99, 107, 115, 123] ++
    [132, 140, 148, 156, 165, 173, 181, 189, 197, 206, 214, 222, 230, 239, 247, 255] := by decide
theorem test_expand6 : (List.range 64).map expand6 =
    [0, 4, 8, 12, 16, 20, 24, 28, 32, 36, 40, 45, 49, 53, 57, 61] ++
    [65, 69, 73, 77, 81, 85, 89, 93, 97, 101, 105, 109, 113, 117, 121, 125] ++
    [130, 134, 138, 142, 146, 150, 154, 158, 162, 166, 170, 174, 178, 182, 186, 190] ++
    [194, 198, 202, 206, 210, 215, 219, 223, 227, 231, 235, 239, 243, 247, 251, 255] := by decide
theorem test_third5 : (List.range 94).map third5 =
    [0, 3, 5, 8, 11, 14, 16, 19, 22, 25, 27, 30, 33, 36, 38, 41] ++
    [44, 47, 49, 52, 55, 58, 60, 63, 66, 69, 71, 74, 77, 80, 82, 85] ++
    [88, 90, 93, 96, 99, 101, 104, 107, 110, 112, 115, 118, 121, 123, 126, 129] ++
    [132, 134, 137, 140, 143, 145, 148, 151, 154, 156, 159, 162, 165, 167, 170, 173] ++
    [175, 178, 181, 184, 186, 189, 192, 195, 197, 200, 203, 206, 208, 211, 214, 217] ++
    [219, 222, 225, 228, 230, 233, 236, 239, 241, 244, 247, 250, 252, 255] := by decide
theorem test_third6_low : (List.range 96).map third6 =
    [0, 1, 3, 4, 5, 7, 8, 9, 11, 12, 13, 15, 16, 18, 19, 20] ++
    [22, 23, 24, 26, 27, 28, 30, 31, 32, 34, 35, 36, 38, 39, 40, 42] ++
    [43, 45, 46, 47, 49, 50, 51, 53, 54, 55, 57, 58, 59, 61, 62, 63] ++
    [65, 66, 67, 69, 70, 72, 73, 74, 76, 77, 78, 80, 81, 82, 84, 85] ++
    [86, 88, 89, 90, 92, 93, 94, 96, 97, 98, 100, 101, 103, 104, 105, 107] ++
    [108, 109, 111, 112, 113, 115, 116, 117, 119, 120, 121, 123, 124, 125, 127, 128] := by decide
theorem test_third6_high : (List.range' 96 94).map third6 =
    [130, 131, 132, 134, 135, 136, 138, 139, 140, 142, 143, 144, 146, 147, 148, 150] ++
    [151, 152, 154, 155, 157, 158, 159, 161, 162, 163, 165, 166, 167, 169, 170, 171] ++
    [173, 174, 175, 177, 178, 179, 181, 182, 183, 185, 186, 188, 189, 190, 192, 193] ++
    [194, 196, 197, 198, 200, 201, 202, 204, 205, 206, 208, 209, 210, 212, 213, 215] ++
    [216, 217, 219, 220, 221, 223, 224, 225, 227, 228, 229, 231, 232, 233, 235, 236] ++
    [237, 239, 240, 242, 243, 244, 246, 247, 248, 250, 251, 252, 254, 255] := by decide
theorem test_half5 : (List.range 63).map half5 =
    [0, 4, 8, 12, 16, 21, 25, 29, 33, 37, 41, 45, 49, 53, 58, 62] ++
    [66, 70, 74, 78, 82, 86, 90, 95, 99, 103, 107, 111, 115, 119, 123, 128] ++
    [132, 136, 140, 144, 148, 152, 156, 160, 165, 169, 173, 177, 181, 185, 189, 193] ++
    [197, 202, 206, 210, 214, 218, 222, 226, 230, 234, 239, 243, 247, 251, 255] := by decide
theorem test_half6 : (List.range 127).map half6 =
    [0, 2, 4, 6, 8, 10, 12, 14, 16, 18, 20, 22, 24, 26, 28, 30] ++
    [32, 34, 36, 38, 40, 43, 45, 47, 49, 51, 53, 55, 57, 59, 61, 63] ++
    [65, 67, 69, 71, 73, 75, 77, 79, 81, 83, 85, 87, 89, 91, 93, 95] ++
    [97, 99, 101, 103, 105, 107, 109, 111, 113, 115, 117, 119, 121, 123, 125, 128] ++
    [130, 132, 134, 136, 138, 140, 142, 144, 146, 148, 150, 152, 154, 156, 158, 160] ++
    [162, 164, 166, 168, 170, 172, 174, 176, 178, 180, 182, 184, 186, 188, 190, 192] ++
    [194, 196, 198, 200, 202, 204, 206, 208, 210, 213, 215, 217, 219, 221, 223, 225] ++
    [227, 229, 231, 233, 235, 237, 239, 241, 243, 245, 247, 249, 251, 253, 255] := by decide

/-! ## Palettes (3.1, 3.4) -/

theorem test_palette_vc5 : colourPalette 0x07E0 0xF800 true =
    #v[⟨0x00, 0xFF, 0x00, 0xFF⟩, ⟨0xFF, 0x00, 0x00, 0xFF⟩, ⟨0x55, 0xAA, 0x00, 0xFF⟩,
      ⟨0xAA, 0x55, 0x00, 0xFF⟩] := by decide
theorem test_palette_vc12 : colourPalette 0x3CE7 0x8A51 false =
    #v[⟨0x3A, 0x9E, 0x3A, 0xFF⟩, ⟨0x8C, 0x49, 0x8C, 0xFF⟩, ⟨0x63, 0x73, 0x63, 0xFF⟩,
      ⟨0x00, 0x00, 0x00, 0x00⟩] := by decide
theorem test_palette_vc16 : colourPalette 0xFFFF 0xFFFE false =
    #v[⟨0xFF, 0xFF, 0xFF, 0xFF⟩, ⟨0xFF, 0xFF, 0xF7, 0xFF⟩, ⟨0xFF, 0xFF, 0xFC, 0xFF⟩,
      ⟨0xFF, 0xFF, 0xFA, 0xFF⟩] := by decide
theorem test_palette_va1 : alphaPalette 0x00 0x00 =
    #v[0x00, 0x00, 0x00, 0x00, 0x00, 0x00, 0x00, 0xFF] := by decide
theorem test_palette_va3 : alphaPalette 0xFF 0x00 =
    #v[0xFF, 0x00, 0xDA, 0xB6, 0x91, 0x6D, 0x48, 0x24] := by decide
theorem test_palette_va15 : alphaPalette 0xFF 0xFE =
    #v[0xFF, 0xFE, 0xFE, 0xFE, 0xFE, 0xFE, 0xFE, 0xFE] := by decide

/-! ## Commands, at most two each -/

-- VC21 under DCOLOR: c0 < c1 with four-colour mode forced.
theorem test_dcolor_vc21 :
    leaves (exec .dcolor (tState (tRegs [0xE7, 0x3C, 0x51, 0x8A, 0x1B, 0x00, 0xE4, 0x4E] 8 0 64 16) 0))
      0 [0x70, 0x65, 0x70, 0xFF, 0x55, 0x82, 0x55, 0xFF, 0x8C, 0x49, 0x8C, 0xFF, 0x3A, 0x9E, 0x3A, 0xFF]
      = true := by decide

-- S3: pure green through index 1; the last row.
theorem test_dcolor_s3 :
    leaves (exec .dcolor (tState (tRegs [0x00, 0xF8, 0xE0, 0x07, 0x55, 0x55, 0x55, 0x55] 8 0 64 16) 0))
      48 [0x00, 0xFF, 0x00, 0xFF, 0x00, 0xFF, 0x00, 0xFF, 0x00, 0xFF, 0x00, 0xFF, 0x00, 0xFF, 0x00, 0xFF]
      = true := by decide

-- VC20: every index value, and the slack after each row keeps the fill.
theorem test_dcolorp_vc20 :
    leaves (exec .dcolorp (tState (tRegs [0x51, 0x8A, 0xE7, 0x3C, 0x1B, 0x00, 0xE4, 0x4E] 8 0 80 20) 80))
      40 [0x8C, 0x49, 0x8C, 0xFF, 0x3A, 0x9E, 0x3A, 0xFF, 0x70, 0x65, 0x70, 0xFF, 0x55, 0x82, 0x55, 0xFF,
        0xEE, 0xEE, 0xEE, 0xEE, 0x70, 0x65, 0x70, 0xFF] = true := by decide

-- VC21 under DCOLORP: three-colour mode, punch-through pixels.
theorem test_dcolorp_vc21 :
    leaves (exec .dcolorp (tState (tRegs [0xE7, 0x3C, 0x51, 0x8A, 0x1B, 0x00, 0xE4, 0x4E] 8 0 64 16) 0))
      48 [0x63, 0x73, 0x63, 0xFF, 0x00, 0x00, 0x00, 0x00, 0x3A, 0x9E, 0x3A, 0xFF, 0x8C, 0x49, 0x8C, 0xFF]
      = true := by decide

-- S4: rows 0 and 1.
theorem test_dsharp_s4 :
    leaves (exec .dsharp (tState (tRegs [0x10, 0x32, 0x54, 0x76, 0x98, 0xBA, 0xDC, 0xFE, 0x00, 0xF8, 0x00,
        0x00, 0x00, 0x00, 0x00, 0x00] 16 0 64 16) 0))
      0 [0xFF, 0x00, 0x00, 0x00, 0xFF, 0x00, 0x00, 0x11, 0xFF, 0x00, 0x00, 0x22, 0xFF, 0x00, 0x00, 0x33,
        0xFF, 0x00, 0x00, 0x44] = true := by decide

-- VS1: nibble order, rows 2 and 3 in part.
theorem test_dsharp_vs1 :
    leaves (exec .dsharp (tState (tRegs [0x0F, 0x1E, 0x2D, 0x3C, 0x4B, 0x5A, 0x69, 0x78, 0xFF, 0xFF, 0x00,
        0x00, 0x00, 0x55, 0xAA, 0xFF] 16 0 64 16) 0))
      32 [0xAA, 0xAA, 0xAA, 0xBB, 0xAA, 0xAA, 0xAA, 0x44, 0xAA, 0xAA, 0xAA, 0xAA, 0xAA, 0xAA, 0xAA, 0x55,
        0x55, 0x55, 0x55, 0x99] = true := by decide

-- VM3: row 1.
theorem test_dsmooth_vm3 :
    leaves (exec .dsmooth (tState (tRegs [0xC8, 0x0A, 0x88, 0xC6, 0xFA, 0x77, 0x39, 0x05, 0x00, 0xF8, 0xE0,
        0x07, 0xE4, 0xE4, 0xE4, 0xE4] 16 0 64 16) 0))
      16 [0xFF, 0x00, 0x00, 0x76, 0x00, 0xFF, 0x00, 0x5B, 0xAA, 0x55, 0x00, 0x40, 0x55, 0xAA, 0x00, 0x25]
      = true := by decide

-- S5, reading A: rows 2 and 3.
theorem test_dsmooth_s5a :
    leaves (exec .dsmooth (tState (tRegs [0x00, 0xFF, 0x55, 0x55, 0x55, 0x55, 0x00, 0xFF, 0x00, 0xF8, 0x00,
        0x00, 0x00, 0x00, 0x00, 0x00] 16 0 64 16) 0))
      32 [0xFF, 0x00, 0x00, 0xCC, 0xFF, 0x00, 0x00, 0x33, 0xFF, 0x00, 0x00, 0xFF, 0xFF, 0x00, 0x00, 0x00,
        0xFF, 0x00, 0x00, 0x00, 0xFF, 0x00, 0x00, 0x00, 0xFF, 0x00, 0x00, 0xFF] = true := by decide

-- VM1: the whole tile.
theorem test_dmono_vm1 :
    leaves (exec .dmono (tState (tRegs [0x64, 0x1E, 0x88, 0xC6, 0xFA, 0x77, 0x39, 0x05] 8 0 16 4) 0))
      0 [0x64, 0x1E, 0x5A, 0x50, 0x46, 0x3C, 0x32, 0x28, 0x28, 0x32, 0x3C, 0x46, 0x50, 0x5A, 0x1E, 0x64]
      = true := by decide

-- 3.6, row 19 of the bounds: the largest pitch, the last row near the end of the address space.
theorem test_dmono_largest_pitch :
    leaves (exec .dmono (tState (tRegs [0x64, 0x1E, 0x88, 0xC6, 0xFA, 0x77, 0x39, 0x05] 8 0 0xFFFFFFFF
      0x55555553) 0)) 0xFFFFFFF9 [0x50, 0x5A, 0x1E, 0x64] = true := by decide

-- VM4: rows 0 to 2, two palettes, slack.
theorem test_ddual_vm4 :
    leaves (exec .ddual (tState (tRegs [0x64, 0x1E, 0x88, 0xC6, 0xFA, 0x77, 0x39, 0x05, 0x0A, 0xC8, 0xFF,
        0x6F, 0xDB, 0x1A, 0x8B, 0x20] 16 0 40 10) 40))
      0 [0x64, 0xFF, 0x1E, 0xFF, 0x5A, 0xFF, 0x50, 0xFF, 0xEE, 0xEE, 0x46, 0x00, 0x3C, 0x00, 0x32, 0x00,
        0x28, 0x00, 0xEE, 0xEE, 0x28, 0x30, 0x32, 0x56, 0x3C, 0x7C, 0x46, 0xA2] = true := by decide

-- Program 5: DDUAL right after reset.
theorem test_ddual_after_reset :
    goesOn (step (State.reset.withFetchWord 32 0x00000004)) (fun t =>
      decide (t.regs.status.word = 0x00000022) && decide (t.regs.cmd = 0x00000004) &&
        t.dst.isEmpty) = true := by decide

/-! ## Faults and their priority (3.6) -/

theorem test_illegal_words :
    statusAfter 0x00000006 16 0 64 16 0x00000012 true = true ∧
    statusAfter 0x0000000B 16 0 64 16 0x00000012 true = true ∧
    statusAfter 0xFFFFFFFF 16 0 64 16 0x00000012 true = true := by decide

theorem test_input_length :
    statusAfter 0x00000000 7 0 64 16 0x00000022 true = true ∧
    statusAfter 0x00000001 15 0 64 16 0x00000022 true = true ∧
    statusAfter 0x00000003 7 0 16 4 0x00000022 true = true ∧
    statusAfter 0x00000000 31 0 64 16 0x00000001 false = true := by decide

theorem test_pitch :
    statusAfter 0x00000000 8 0 64 15 0x00000032 true = true ∧
    statusAfter 0x00000003 8 0 100 0 0x00000032 true = true ∧
    statusAfter 0x00000004 16 0 32 7 0x00000032 true = true ∧
    statusAfter 0x00000004 16 0 32 8 0x00000001 false = true := by decide

theorem test_bounds :
    statusAfter 0x00000003 8 0 15 4 0x00000042 true = true ∧
    statusAfter 0x00000000 8 0xFFFFFFC1 64 16 0x00000042 true = true ∧
    statusAfter 0x00000000 8 0xFFFFFFC0 64 16 0x00000001 false = true ∧
    statusAfter 0x00000003 8 0 0xFFFFFFFF 0x55555554 0x00000042 true = true := by decide

theorem test_priority :
    statusAfter 0x00000009 7 0xFFFFFFFF 64 15 0x00000012 true = true ∧
    statusAfter 0x00000000 7 0xFFFFFFFF 64 15 0x00000022 true = true ∧
    statusAfter 0x00000000 8 0 0 0 0x00000032 true = true ∧
    statusAfter 0x00000000 8 0 0 16 0x00000042 true = true := by decide

/-! ## Register accesses (3.7), one access each -/

/-- The default state after one host access. -/
def afterAccess (op : HostOp) (P : State → Bool) : Bool :=
  goesOn (step (hostNext (tState (tRegs [] 0 0 0 0) 0) op)) P

theorem test_write_blkw0 : afterAccess (.wr 0x08 0x76543210) (fun t =>
    decide (t.regs.blk[0] = 0x10 ∧ t.regs.blk[1] = 0x32 ∧ t.regs.blk[2] = 0x54 ∧
      t.regs.blk[3] = 0x76 ∧ t.regs.blk[4] = 0x00)) = true := by decide
theorem test_write_blkw3 : afterAccess (.wr 0x0B 0xAABBCCDD) (fun t =>
    decide (t.regs.blk[12] = 0xDD ∧ t.regs.blk[15] = 0xAA ∧
      t.regs.read 0x0B = 0xAABBCCDD)) = true := by decide
theorem test_write_blk_cnt : afterAccess (.wr 0x05 0xFFFFFFE9) (fun t =>
    decide (t.regs.read 0x05 = 0x00000009)) = true := by decide
theorem test_write_status_ignored : afterAccess (.wr 0x01 0xFFFFFFFF) (fun t =>
    decide (t.regs = tRegs [] 0 0 0 0)) = true := by decide
theorem test_read_unassigned : afterAccess (.rd 0xFF) (fun t => decide (t.rdata = 0)) = true := by
  decide
theorem test_write_pitch : afterAccess (.wr 0x04 0xFFFFFFFF) (fun t =>
    decide (t.regs.read 0x04 = 0xFFFFFFFF)) = true := by decide
theorem test_write_pitch_aw16 :
    goesOn (step (hostNext { tState (tRegs [] 0 0 0 0) 0 with cfg := { aw := 16 } }
      (.wr 0x04 0xFFFFFFFF))) (fun t => decide (t.regs.read 0x04 = 0x0000FFFF)) = true := by decide

-- R50: the last byte of `DST` has a value although nothing has been stored there; the next address
-- does not exist.
theorem test_load_last_byte : afterAccess (.load 0xFFFFFFFF) (fun _ => true) = true ∧
    afterAccess (.load 0x100000000) (fun _ => true) = false := by decide

/-! ## Several instances (R64) -/

-- VM1's block on two instances with disjoint tiles: the union, here the second instance's rows.
theorem test_together_disjoint :
    let b : List Byte := [0x64, 0x1E, 0x88, 0xC6, 0xFA, 0x77, 0x39, 0x05]
    leaves (step (hostNext (tPair (tRegs b 8 0 16 4) (tRegs b 8 16 16 4)) (.together [(0, 3), (1, 3)])))
      12 [0x50, 0x5A, 0x1E, 0x64, 0x64, 0x1E, 0x5A, 0x50] = true := by decide

theorem test_together_refuses_one_instance_twice :
    (tPair (tRegs [] 0 0 0 0) (tRegs [] 0 0 0 0)).together [(1, 0), (1, 3)] =
      .refused .coreNamedTwice := rfl

/-! ## States and operands that meet the hypotheses of the statements -/

/-- Registers at the accepted edge of every bound for `i`: the exact block bytes, the minimum pitch,
the least region, ending exactly at the end of the address space. -/
def edge (i : Instr) : Regs :=
  tRegs [0x00, 0x00, 0xFF, 0xFF, 0xFF, 0xFF, 0xFF, 0xFF] (BitVec.ofNat 5 (blockBytes i))
    (BitVec.ofNat 32 (2 ^ 32 - 16 * pixelSize i)) (BitVec.ofNat 32 (16 * pixelSize i))
    (BitVec.ofNat 32 (4 * pixelSize i))

/-- The same registers after a fault. -/
def faulted (r : Regs) : Regs := { r with status := Status.raised .outputBounds }

/-- The state of a default build with these registers and `DST` empty. -/
def at' (r : Regs) : State := { State.reset with regs := r }

theorem edge_running (i : Instr) : (edge i).status.fault = false := rfl

theorem edge_ready (i : Instr) : (edge i).ready Config.standard i := by
  cases i <;> (unfold Regs.ready; decide)

theorem edge_runs (i : Instr) : ∃ t, exec i (at' (edge i)) = .next t :=
  ⟨_, exec_eq i _⟩

theorem inv_of {r : Regs} (h : r.status = Status.reset) (hf : r.fits Config.standard) :
    (at' r).Inv := by
  have hr : r.recordsTruly Config.standard := by simp [Regs.recordsTruly, h]
  refine ⟨(by decide : Config.standard.legal = true), ⟨hf, hr⟩, ?_, ?_, ?_⟩ <;>
    simp [at', State.reset, State.powerOn, Memory.wf, Memory.within]

theorem edge_inv (i : Instr) : (at' (edge i)).Inv :=
  inv_of rfl (by cases i <;> (unfold Regs.fits; decide))

/-- A write of `CMD` on a halted instance, a command word, and an illegal word on a running
instance. -/
theorem witness_StepRunsTheDecodedCommand :
    (hostNext (at' (faulted (edge .dmono))) (.wr 0 4)).host = .wr 0 4 :: [] ∧
      (faulted (edge .dmono)).status.fault = true ∧ decode 4 = .ok .ddual ∧
      (edge .dmono).status.fault = false ∧ decode 0x10 = .error .reservedBitsSet := by decide

theorem witness_OtherWordsRaiseIllegalCommand : (edge .dcolor).status.fault = false ∧
    (0x00000005 : Word) ∉
      ([0x00000000, 0x00000001, 0x00000002, 0x00000003, 0x00000004, 0x00000008] : List Word) := by
  decide

theorem witness_HaltedUntilReset :
    let s := at' (faulted (edge .dcolor))
    s.regs.status.fault = true ∧ HostOp.rd 1 ≠ .reset ∧ (∀ k, HostOp.rd 1 ≠ .select k) ∧
      ∃ t, step (hostNext s (.rd 1)) = .next t :=
  ⟨rfl, by simp, by simp, _, rfl⟩

/-- `CommandRule`, every command: a register file at the edge of each of its four clauses (both
bounds of the third), none of them under two clauses. -/
theorem witness_CommandRule (i : Instr) :
    let short := { edge i with blkCnt := (edge i).blkCnt - 1 }
    let narrow := { edge i with pitch := (edge i).pitch - 1 }
    let beyond := { edge i with dstBase := (edge i).dstBase + 1 }
    let small := { edge i with dstLen := (edge i).dstLen - 1 }
    (short.status.fault = false ∧ short.blkCnt.toNat < blockBytes i) ∧
    (narrow.status.fault = false ∧ blockBytes i ≤ narrow.blkCnt.toNat ∧
      narrow.pitch.toNat < 4 * pixelSize i) ∧
    (beyond.status.fault = false ∧ blockBytes i ≤ beyond.blkCnt.toNat ∧
      4 * pixelSize i ≤ beyond.pitch.toNat ∧
      2 ^ Config.standard.aw < beyond.dstBase.toNat + beyond.dstLen.toNat) ∧
    (small.status.fault = false ∧ blockBytes i ≤ small.blkCnt.toNat ∧
      4 * pixelSize i ≤ small.pitch.toNat ∧
      small.dstLen.toNat < 3 * small.pitch.toNat + 4 * pixelSize i) ∧
    (edge i).ready Config.standard i := by
  refine ⟨?_, ?_, ?_, ?_, edge_ready i⟩ <;> cases i <;> decide

/-- The two cases of `DcolorpDecodesAPunchThroughTile` and of `FourColourTilesAreOpaque`: words that
are not rising (VC11), and rising words with index 3 and with another index (VC12, pixels 0 and 1). -/
theorem witness_colour_modes :
    let f := (tRegs [0x51, 0x8A, 0xE7, 0x3C, 0x1B, 0x00, 0xE4, 0x4E] 8 0 64 16)
    let t := (tRegs [0xE7, 0x3C, 0x51, 0x8A, 0x1B, 0x00, 0xE4, 0x4E] 8 0 64 16)
    (colourWord1 f.loHalf < colourWord0 f.loHalf) ∧ f.ready Config.standard .dcolorp ∧
      (colourWord0 t.loHalf ≤ colourWord1 t.loHalf) ∧ t.ready Config.standard .dcolorp ∧
      (colourIndex t.loHalf (4 * 0 + 0)).val = 3 ∧ (colourIndex t.loHalf (4 * 0 + 1)).val ≠ 3 := by
  unfold Regs.ready
  decide

theorem witness_EightByteCommandsIgnoreTheUpperHalf :
    let s := at' (edge .dcolorp)
    let blk := s.regs.blk.set 8 0x55
    Instr.dcolorp ∈ [Instr.dcolor, .dcolorp, .dmono] ∧
      (∀ j (h : j < 8), blk[j] = s.regs.blk[j]) ∧ blk ≠ s.regs.blk ∧
      ∃ t, exec .dcolorp s = .next t :=
  ⟨by simp, by decide, by decide, edge_runs .dcolorp⟩

/-- Two states that differ in `BLK`, `DST`, `CMD`, `DONE` and the host's side, one word that faults on
both and one that does not. -/
theorem witness_BlockContentsNeverDecideAFault :
    let s := tState (tRegs [] 16 0x80 63 16) 0
    let r' : Regs := { tRegs [0x55] 16 0x80 63 16 with cmd := 3, status := Status.reset.completed }
    let s' := { tState r' 4 with rdata := 7 }
    s'.cfg = s.cfg ∧ s'.regs.status.fault = s.regs.status.fault ∧ s'.regs.blkCnt = s.regs.blkCnt ∧
      s'.regs.dstBase = s.regs.dstBase ∧ s'.regs.dstLen = s.regs.dstLen ∧
      s'.regs.pitch = s.regs.pitch ∧ s.regs.status.fault = false ∧
      goesOn (step (hostNext s (.wr 0 1))) (fun t => t.regs.status.fault) = true ∧
      goesOn (step (hostNext s (.wr 0 3))) (fun t => !t.regs.status.fault) = true := by decide

theorem witness_FaultingCommandStoresNothing :
    goesOn (step (hostNext (at' (tRegs [] 16 0x80 63 16)) (.wr 0 1)))
      (fun t => t.regs.status.fault) = true ∧
    goesOn (step (hostNext (at' (tRegs [] 16 0x80 63 16)) (.wr 0 5)))
      (fun t => t.regs.status.fault) = true := by decide

theorem witness_DoneExactlyWhenTheContractHolds :
    (edge .dsmooth).status.fault = false ∧ ∃ t, exec .dsmooth (at' (edge .dsmooth)) = .next t :=
  ⟨rfl, edge_runs .dsmooth⟩

theorem witness_NoStoreOutsideTheRegion :
    (∃ t, exec .dmono (at' (edge .dmono)) = .next t) ∧ 0xFFFFFFEF < (edge .dmono).dstBase.toNat ∧
      (tRegs [] 8 0x40 28 8).dstBase.toNat + (tRegs [] 8 0x40 28 8).dstLen.toNat ≤ 0x5C :=
  ⟨edge_runs .dmono, by decide, by decide⟩

/-- Another region, another `AW` and another byte beyond the eight the command reads. -/
theorem witness_StoredBytesDependOnCommandBlockAndPitchAlone :
    let r := tRegs [0x64, 0x1E, 0x88] 8 0 16 4
    let r' := tRegs [0x64, 0x1E, 0x88, 0, 0, 0, 0, 0, 0x55] 9 0x40 32 4
    r.ready Config.standard .dmono ∧ r'.ready { aw := 8 } .dmono ∧
      (∀ j (h : j < 16), j < blockBytes .dmono → r'.blk[j] = r.blk[j]) ∧ r'.pitch = r.pitch ∧
      0 ∈ writeSet .dmono r.pitch.toNat := by
  unfold Regs.ready
  decide

theorem witness_HostSeesEveryStoreAtOnce (i : Instr) :
    (at' (edge i)).regs.ready (at' (edge i)).cfg i ∧
      16 * pixelSize i - 1 ∈ writeSet i (edge i).pitch.toNat :=
  ⟨edge_ready i, by cases i <;> decide⟩

theorem witness_RunningACommandAgainChangesNothing (i : Instr) :
    (at' (edge i)).Inv ∧ ∃ t, exec i (at' (edge i)) = .next t := ⟨edge_inv i, edge_runs i⟩

theorem witness_RowsOfATileDoNotOverlap :
    4 * 2 ≤ 8 ∧ 3 < 16 ∧ 3 < 16 ∧ 1 < 2 ∧ offset 8 2 3 1 = offset 8 2 3 1 := by decide

theorem witness_WriteSetIsTheTilesFourRows : 4 * pixelSize .ddual ≤ 8 := by decide

theorem witness_IndexFieldIsAShiftingAccumulator : 0 < 3 := by decide

theorem witness_reference_and_four_colour_palettes :
    (0xFFFF < 65536 ∧ 0xFFFE < 65536 ∧ (0xFFFE < 0xFFFF ∨ false = true)) ∧
      (0x0000 < 65536 ∧ 0xFFFF < 65536 ∧ (0xFFFF < 0x0000 ∨ true = true)) := by decide

theorem witness_ThreeColourPaletteValues : 0xFFFE < 65536 ∧ 0xFFFF < 65536 ∧ 0xFFFE ≤ 0xFFFF := by
  decide

theorem witness_FourColourTilesAreOpaque :
    let r := tRegs [0x51, 0x8A, 0xE7, 0x3C] 8 0 64 16
    r.ready Config.standard .dcolor ∧ r.ready Config.standard .dcolorp ∧
      colourWord1 r.loHalf < colourWord0 r.loHalf := by
  unfold Regs.ready
  decide

theorem witness_SmoothRamps : (0x00 < 256 ∧ 0xFF < 256 ∧ 0x00 ≤ 0xFF) ∧
    (0xFF < 256 ∧ 0xFE < 256 ∧ 0xFE < 0xFF) ∧ (0x4D < 256 ∧ 0x4D ≤ 0x4D) := by decide

theorem witness_MergedPassesLeaveTheSameDst :
    Memory.wf (tState (edge .dsharp) 4).dst ∧ 16 ≤ (edge .dsharp).pitch.toNat := by decide

theorem witness_ChannelsDoNotInfluenceEachOther (i : Instr)
    (h : i ∈ [Instr.dsharp, .dsmooth, .ddual]) :
    let s := at' (edge i)
    i ∈ [Instr.dsharp, .dsmooth, .ddual] ∧ s.regs.ready s.cfg i ∧ (∃ t, exec i s = .next t) ∧
      (∃ u, exec i (withBlk s (s.regs.blk.set 8 0x55)) = .next u) ∧
      (∀ j (h : j < 8), (s.regs.blk.set 8 0x55)[j] = s.regs.blk[j]) ∧
      (∃ u, exec i (withBlk s (s.regs.blk.set 0 0x55)) = .next u) ∧
      (∀ j (h : j < 8), (s.regs.blk.set 0 0x55)[8 + j] = s.regs.blk[8 + j]) :=
  ⟨h, edge_ready i, edge_runs i, ⟨_, exec_eq _ _⟩,
    fun j hj => Vector.getElem_set_ne _ _ (by omega), ⟨_, exec_eq _ _⟩,
    fun j hj => Vector.getElem_set_ne _ _ (by omega)⟩

theorem witness_BlockWordsAreALittleEndianView : 0 < 4 ∧ 3 < 4 ∧
    (edge .dcolor).status.fault = false := by decide

theorem witness_region_and_count_writes : (at' (edge .dcolor)).regs.status.fault = false := rfl

theorem witness_UnassignedNumbersIgnoreWritesAndReadZero :
    (0x0C = 0x01 ∨ 0x0C = 0x06 ∨ 0x0C = 0x07 ∨ 0x0B < 0x0C) ∧ ¬ 0x0B < 0x0B := by decide

theorem witness_StatusReadsOneOfSixValues : (at' (edge .dcolor)).Inv := edge_inv .dcolor

theorem witness_ResetStateHoldsTheResetValues : (0x07 < 0x08 ∨ 0x0B < 0x07) ∧
    (0x0C < 0x08 ∨ 0x0B < 0x0C) := by decide

theorem witness_InvariantHoldsAtPowerOn :
    Config.legal { aw := 8 } = true ∧ Config.legal { aw := 32 } = true ∧
      Config.legal { aw := 7 } = false ∧ Config.legal { aw := 33 } = false := by decide

theorem witness_EveryStepKeepsTheInvariant :
    (hostNext (at' (edge .dcolor)) (.wr 0 0)).Inv ∧
      ∃ t, step (hostNext (at' (edge .dcolor)) (.wr 0 0)) = .next t :=
  ⟨edge_inv .dcolor, _, (step_command rfl rfl).trans (exec_eq .dcolor _)⟩

theorem witness_OtherInstancesKeepTheirRegisters :
    let s := hostNext (tPair (edge .dmono) (edge .ddual)) (.wr 4 16)
    s.host = .wr 4 16 :: [] ∧ (∀ k, HostOp.wr 4 16 ≠ .select k) ∧
      (∀ cmds, HostOp.wr 4 16 ≠ .together cmds) ∧ ∃ t, step s = .next t :=
  ⟨rfl, by simp, by simp, _, rfl⟩

/-- Two instances whose tiles overlap: address 12 is stored to by both, 0 by the first alone, 20 by
the second alone. -/
theorem witness_CommandsTogetherGiveTheUnionOfTheirStores :
    let q := tRegs [] 8 0 16 4
    let r := tRegs [] 8 12 28 8
    let A := wordResult 3 Config.standard q
    let B := wordResult 3 Config.standard r
    0 ≠ 1 ∧ (tPair q r).core? 0 = some q ∧ (tPair q r).core? 1 = some r ∧
      12 ∈ A.stores.map Prod.fst ∧ 12 ∈ B.stores.map Prod.fst ∧ 0 ∉ B.stores.map Prod.fst ∧
      20 ∉ A.stores.map Prod.fst := by
  refine ⟨by decide, rfl, rfl, ?_, ?_, ?_, ?_⟩ <;> decide

theorem witness_TheLaterCommandWins :
    let r := tRegs [] 16 0 64 16
    r.ready Config.standard .dsmooth ∧ r.ready Config.standard .dmono := by
  unfold Regs.ready
  decide

theorem witness_HostReadsEveryByteOfDst :
    let s := tState (tRegs [0x64, 0x1E] 8 0 16 4) 4
    0xFFFFFFFF < 2 ^ s.cfg.aw ∧ 2 ^ s.cfg.aw ≤ 0x100000000 ∧ Memory.read s.dst 3 = some 0xEE ∧
      Memory.read s.dst 0x10 = none ∧ (∃ t, exec .dmono s = .next t) ∧
      ∀ o ∈ writeSet .dmono s.regs.pitch.toNat, 0x10 ≠ s.regs.dstBase.toNat + o :=
  ⟨by decide, by decide, by decide, by decide, ⟨_, exec_eq _ _⟩, by decide⟩

theorem witness_RunsEndWellOrInAFault :
    let s := { at' (edge .dmono) with host := [.rd 1, .reset] }
    let w := at' { edge .dmono with status := Status.reset.completed }
    (at' (faulted (edge .dmono))).endedInFault 0 ∧ s.Inv ∧ s.regs.ready s.cfg .dmono ∧
      (∀ op ∈ s.host, op.writesCmd = false) ∧ w.endedWell 0 ∧ (HostOp.rd 1).writesCmd = false ∧
      HostOp.rd 1 ≠ .reset ∧ (∀ k, HostOp.rd 1 ≠ .select k) ∧
      ∃ t, step (hostNext w (.rd 1)) = .next t :=
  ⟨⟨_, rfl, rfl⟩, edge_inv .dmono, edge_ready .dmono, by simp [HostOp.writesCmd],
    ⟨by simp [at', State.reset, State.powerOn], _, rfl, by decide⟩, rfl, by simp, by simp, _, rfl⟩

theorem witness_HostStoresItsOwnMemory :
    0xFFFFFFFF + ([0x11] : List Byte).length ≤ 2 ^ Config.standard.aw ∧
      2 ^ Config.standard.aw < 0xFFFFFFFF + ([0x11, 0x22] : List Byte).length := by decide

end Sys2Proof.Tests
end

