-- ==== Sys2Proof/Proofs/Scope.lean ====
section
/-! PROOFS. The statements about the scope of the model: the build parameters (R7), the machine
right after reset (R34) and the invariant of a build just powered on. -/

namespace Sys2Proof.Proofs

open Sys2Proof Sys2Proof.Machine

/-! ## The build is kept (R7) -/

/-- The number of cores is read off the list of the others. -/
theorem ninst_eq_of_others_length {s t : State} (h : t.others.length = s.others.length) :
    t.ninst = s.ninst := by
  rw [State.ninst, State.ninst, h]

/-- A command changes neither the address width nor the number of cores. -/
theorem exec_keeps_build {i : Instr} {s t : State} (h : exec i s = .next t) :
    t.cfg = s.cfg ∧ t.ninst = s.ninst := by
  rw [exec_eq] at h
  cases h
  exact ⟨rfl, rfl⟩

/-- Nor does any other access of the host: `select` exchanges two cores, a group replaces the
registers of cores one by one, and the rest leave the list of cores alone. -/
theorem access_keeps_build {op : HostOp} {s t : State} (h : s.access op = .next t) :
    t.cfg = s.cfg ∧ t.ninst = s.ninst := by
  rcases State.access_cases h with ⟨_, _, -, rfl⟩ | ⟨_, -, rfl⟩ | ⟨-, rfl⟩ | ⟨_, _, -, -, rfl⟩ |
    ⟨_, -, -, rfl⟩ | ⟨_, _, -, -, rfl⟩ | ⟨cmds, -, -, -, rfl⟩
  · exact ⟨rfl, rfl⟩
  · exact ⟨rfl, rfl⟩
  · exact ⟨rfl, rfl⟩
  · exact ⟨rfl, rfl⟩
  · exact ⟨rfl, rfl⟩
  · exact ⟨rfl, ninst_eq_of_others_length List.length_set⟩
  · obtain ⟨hcfg, hlength, -, -⟩ := State.runTogether_frame s [] cmds
    exact ⟨hcfg, ninst_eq_of_others_length hlength⟩

/-- Settles O49, by everything a step can do: taking an access off the host's list does not touch
the build, and neither a command, an illegal word nor another access changes it. -/
theorem noStepChangesTheBuild : Obligations.NoStepChangesTheBuild := by
  intro s t h
  rcases step_cases h with ⟨-, rfl⟩ | ⟨_, _, _, -, -, hexec⟩ | ⟨_, _, _, -, -, rfl⟩ |
    ⟨_, _, -, -, haccess⟩
  · exact ⟨rfl, rfl⟩
  · exact exec_keeps_build (s := s.popHost) hexec
  · exact ⟨rfl, rfl⟩
  · exact access_keeps_build (s := s.popHost) haccess

/-! ## The machine right after reset (R34) -/

/-- R34: `STATUS` is 0x00000000. -/
theorem word_status_reset : Status.reset.word = 0 := by decide

/-- Every register number below those of the block words reads 0 after any reset. -/
theorem read_reset_of_lt (n : Nat) {reg : Nat} (h : reg < regBlkW0) :
    (Regs.reset n).read reg = 0 := by
  have hreg : reg < 8 := h
  interval_cases reg
  on_goal 2 => exact word_status_reset
  all_goals rfl

/-- Settles O44: the numbers below 0x08 read their reset values, those above 0x0B name no
register. -/
theorem resetStateHoldsTheResetValues : Obligations.ResetStateHoldsTheResetValues := by
  refine ⟨fun reg h => ?_, rfl, rfl, rfl⟩
  rcases h with hlow | hhigh
  · exact read_reset_of_lt 0 hlow
  · exact Regs.read_unassigned (.inr (.inr hhigh))

/-! ## The invariant at power-on -/

/-- Every core of a build just powered on has just been reset, and `DST` lists no byte. -/
theorem inv_powerOn {c : Config} (hc : c.legal = true) (n : Nat) : (State.powerOn c n).Inv := by
  have hothers : ∀ r ∈ (State.powerOn c n).others, r.Inv c := by
    intro r hr
    obtain ⟨k, -, rfl⟩ := List.mem_map.1 hr
    exact Regs.Inv_reset c (k + 1)
  exact ⟨hc, Regs.Inv_reset c 0, hothers, List.Pairwise.nil, nofun⟩

/-- Settles O47: R7's default build is legal, so its reset state is a case of the rule for
every legal build. -/
theorem invariantHoldsAtPowerOn : Obligations.InvariantHoldsAtPowerOn :=
  ⟨fun _ n hc => inv_powerOn hc n, inv_powerOn (by decide) 1⟩

end Sys2Proof.Proofs
end

