-- ==== Sys2Proof/Proofs/State.lean ====
section
/-! PROOFS. The statements about the register state (10_state.md): the invariant, the illegal
command words, what a command keeps, and the host's accesses to the registers and to `DST`. -/

namespace Sys2Proof.Proofs

open Sys2Proof Sys2Proof.Machine Sys2Proof.Claims

/-! ## The invariant (R25, R26, R50, R210) -/

/-- The registers of the core the host addresses are in order. -/
theorem inv_regs {s : State} (h : s.Inv) : s.regs.Inv s.cfg := h.core (k := 0) rfl

/-- A command keeps the invariant: its checks keep the registers in order, and what it stores lies
inside the address space. -/
theorem exec_keeps_inv {i : Instr} {s t : State} (h : s.Inv) (hexec : exec i s = .next t) :
    t.Inv := by
  rw [exec_eq, commandResult_eq] at hexec
  cases hexec
  obtain ⟨hlegal, hregs, hothers, hwf, hwithin⟩ := h
  exact ⟨hlegal, Regs.Inv_execute hregs i _, hothers, Memory.wf_storeAll hwf _,
    Memory.within_storeAll hwithin fun _ => Regs.execute_stores_lt⟩

/-- The host's own stores keep the invariant where all their addresses exist. -/
theorem inv_storeAll_consecutive {s : State} (h : s.Inv) {a : Nat} {bytes : List Byte}
    (hfit : a + bytes.length ≤ s.cfg.space) :
    ({ s with dst := Memory.storeAll s.dst (consecutive a bytes) } : State).Inv := by
  have ⟨_, _, _, hwf, hwithin⟩ := h
  refine State.Inv_withDst h (Memory.wf_storeAll hwf _) (Memory.within_storeAll hwithin ?_)
  exact fun st hst => (mem_consecutive hst).2.trans_le hfit

/-- Two cores that change places are the same cores, so each is still in order. -/
theorem inv_select {s : State} (h : s.Inv) {k : Nat} {r : Regs} (hk : s.others[k]? = some r) :
    ({ s with regs := r, others := s.others.set k s.regs } : State).Inv :=
  State.Inv_setCore (State.Inv_setCore h (k + 1) (inv_regs h)) 0 (h.core (k := k + 1) hk)

/-- An access other than a write of `CMD` keeps the invariant. -/
theorem access_keeps_inv {op : HostOp} {s t : State} (h : s.Inv)
    (haccess : s.access op = .next t) : t.Inv := by
  rcases State.access_cases haccess with ⟨reg, v, -, rfl⟩ | ⟨_, -, rfl⟩ | ⟨-, rfl⟩ |
    ⟨a, bytes, -, hfit, rfl⟩ | ⟨_, -, -, rfl⟩ | ⟨k, r, -, hk, rfl⟩ | ⟨cmds, -, -, -, rfl⟩
  · exact State.Inv_setCore h 0 (Regs.Inv_write (inv_regs h) reg v)
  · exact State.Inv_of_eq h rfl rfl rfl rfl
  · exact State.Inv_of_eq (State.Inv_setCore h 0 (Regs.Inv_reset s.cfg s.fresh)) rfl rfl rfl rfl
  · exact inv_storeAll_consecutive h hfit
  · exact State.Inv_of_eq h rfl rfl rfl rfl
  · exact inv_select h hk
  · exact State.Inv_runTogether h [] cmds

/-- Settles O48, by everything a step can do: taking an access off the host's list keeps the
invariant, and so does each kind of access. -/
theorem everyStepKeepsTheInvariant : Obligations.EveryStepKeepsTheInvariant := by
  intro s t h hstep
  have hpop : s.popHost.Inv := State.Inv_of_eq h rfl rfl rfl rfl
  rcases step_cases hstep with ⟨-, rfl⟩ | ⟨_, _, _, -, -, hexec⟩ | ⟨w, _, _, -, hillegal, rfl⟩ |
    ⟨_, _, -, -, haccess⟩
  · exact h
  · exact exec_keeps_inv hpop hexec
  · exact State.Inv_setCore hpop 0 (Regs.Inv_illegal (inv_regs hpop) hillegal)
  · exact access_keeps_inv hpop haccess

/-! ## The illegal command words (R83) -/

/-- The decoder refuses exactly the words that are no command's. -/
theorem decode_error_iff {w : Word} : (∃ e, decode w = .error e) ↔ ∀ i, w ≠ encode i := by
  constructor
  · rintro ⟨e, he⟩
    exact ne_encode_of_decode_error he
  · intro hne
    cases hd : decode w with
    | ok i => exact absurd (decode_ok hd) (hne i)
    | error e => exact ⟨e, rfl⟩

/-- No command's word, by value. -/
theorem forall_ne_encode_iff {w : Word} :
    (∀ i, w ≠ encode i) ↔ w.toNat ∉ [0, 1, 2, 3, 4, 8] := by
  constructor
  · intro h
    simp only [ne_eq, eq_encode_iff, encode_toNat] at h
    simpa using ⟨h .dcolor, h .dsharp, h .dsmooth, h .dmono, h .ddual, h .dcolorp⟩
  · rintro h i rfl
    exact h (by cases i <;> decide)

/-- Settles O3: the numbers other than 0 to 4 and 8 are the three kinds of R83, by the fields of
the word. -/
theorem illegalWordsAreExactlyTheUnassigned :
    Obligations.IllegalWordsAreExactlyTheUnassigned := by
  intro w
  have hpt : w.getLsbD 3 = true ↔ w.toNat / 8 % 2 = 1 := by
    rw [← cmdPt, cmdPt_eq, decide_eq_true_iff]
  rw [decode_error_iff, forall_ne_encode_iff, hpt]
  simp only [List.mem_cons, List.not_mem_nil, or_false, not_or]
  omega

/-! ## What a command keeps (R22, R23, R26, R63) -/

/-- A command changes `CMD`, `STATUS` and `DST`, and nothing else. -/
theorem exec_frame {i : Instr} {s t : State} (h : exec i s = .next t) :
    ∃ cmd status dst,
      t = { s with regs := { s.regs with cmd := cmd, status := status }, dst := dst } := by
  rcases exec_cases h with ⟨-, rfl⟩ | ⟨x, -, -, rfl⟩ | ⟨-, rfl⟩
  · exact ⟨_, _, _, rfl⟩
  · exact ⟨_, _, _, rfl⟩
  · exact ⟨_, _, _, rfl⟩

/-- Settles O13, by the frame of a command. -/
theorem commandsLeaveTheirOperandsAlone : Obligations.CommandsLeaveTheirOperandsAlone := by
  intro i s
  obtain ⟨t, ht⟩ : ∃ t, exec i s = .next t := ⟨_, exec_eq i s⟩
  obtain ⟨cmd, status, dst, rfl⟩ := exec_frame ht
  exact ⟨_, ht, rfl, rfl, rfl, rfl, rfl, rfl, rfl, rfl, rfl, rfl⟩

/-- The stores of a command are a function of the block bytes it needs and of `PITCH` (R195). -/
theorem recipe_congr {i : Instr} {r r' : Regs}
    (hblk : ∀ j (h : j < 16), j < blockBytes i → r'.blk[j] = r.blk[j])
    (hpitch : r'.pitch = r.pitch) : recipe i r' = recipe i r := by
  have hbytes : 8 ≤ blockBytes i := by cases i <;> decide
  have hlo : r'.loHalf = r.loHalf :=
    Regs.loHalf_congr fun j hj => hblk j (by omega) (hj.trans_le hbytes)
  have hhi : blockBytes i = 16 → r'.hiHalf = r.hiHalf := fun h16 =>
    Regs.hiHalf_congr fun j hj => hblk (8 + j) (by omega) (by omega)
  cases i with
  | dcolor => simp only [recipe, hlo, hpitch]
  | dcolorp => simp only [recipe, hlo, hpitch]
  | dsharp => simp only [recipe, hlo, hhi rfl, hpitch]
  | dsmooth => simp only [recipe, hlo, hhi rfl, hpitch]
  | dmono => simp only [recipe, hlo, hpitch]
  | ddual => simp only [recipe, hlo, hhi rfl, hpitch]

/-- Other bytes in `BLK` beyond those a command needs change nothing but `BLK` itself. -/
theorem exec_withBlk {i : Instr} {s t : State} {blk : Vector Byte 16}
    (hblk : ∀ j (h : j < 16), j < blockBytes i → blk[j] = s.regs.blk[j])
    (h : exec i s = .next t) : exec i (withBlk s blk) = .next (withBlk t blk) := by
  have hcheck : (withBlk s blk).regs.violation? s.cfg i = s.regs.violation? s.cfg i :=
    Regs.violation?_congr i rfl rfl rfl rfl
  rcases exec_cases h with ⟨hf, rfl⟩ | ⟨x, hf, hx, rfl⟩ | ⟨hready, rfl⟩
  · exact exec_halted hf
  · exact exec_violation hf (hcheck.trans hx)
  · have hrecipe : recipe i (withBlk s blk).regs = recipe i s.regs := recipe_congr hblk rfl
    rw [exec_ready (s := withBlk s blk) hready, hrecipe]
    rfl

/-- Settles O14: by the frame of a command, and because a command that needs 8 bytes looks at no
other. -/
theorem eightByteCommandsIgnoreTheUpperHalf :
    Obligations.EightByteCommandsIgnoreTheUpperHalf := by
  constructor
  · intro i s t h
    obtain ⟨cmd, status, dst, rfl⟩ := exec_frame h
    exact ⟨rfl, rfl⟩
  · intro i s t blk hi hlow h
    have hbytes : ∀ i ∈ [Instr.dcolor, .dcolorp, .dmono], blockBytes i = 8 := by decide
    exact exec_withBlk (fun j _ hj => hlow j (hbytes i hi ▸ hj)) h

/-! ## One access in front of the host's list -/

/-- A step performs the access in front; a write of `CMD` runs a command. -/
theorem step_hostNext {s : State} {op : HostOp} (hop : ∀ w, op ≠ .wr regCmd w) :
    step (hostNext s op) = s.access op := step_access rfl hop

theorem step_hostNext_wr (s : State) {reg : Nat} (v : Word) (hreg : reg ≠ regCmd) :
    step (hostNext s (.wr reg v)) = .next { s with regs := s.regs.write s.cfg reg v } :=
  step_write rfl hreg

theorem step_hostNext_rd (s : State) (reg : Nat) :
    step (hostNext s (.rd reg)) = .next { s with rdata := s.regs.read reg } := step_read rfl

theorem step_hostNext_reset (s : State) : step (hostNext s .reset) = .next s.resetEvent :=
  step_reset rfl

theorem step_hostNext_mem (s : State) (a : Nat) (bytes : List Byte) :
    step (hostNext s (.mem a bytes)) = s.hostStore a bytes := step_hostNext (by simp)

theorem step_hostNext_load (s : State) (a : Nat) : step (hostNext s (.load a)) = s.hostLoad a :=
  step_hostNext (by simp)

/-! ## The registers (R21, R22, R26, R33) -/

/-- Settles O39, by the word view of `BLK`. -/
theorem blockWordsAreALittleEndianView : Obligations.BlockWordsAreALittleEndianView := by
  intro s k v hk hf
  have hwrite := Regs.write_blkWord (c := s.cfg) hf v ⟨k, hk⟩
  have hread := (Regs.read_blkWord (s.regs.withBlkWord ⟨k, hk⟩ v) ⟨k, hk⟩).trans
    (Regs.blkWord_withBlkWord ..)
  refine ⟨{ s with regs := s.regs.withBlkWord ⟨k, hk⟩ v }, ?_, rfl, fun j hj => ?_, ?_⟩
  · rw [step_hostNext_wr s v (by simp), hwrite]
  · rw [Regs.withBlkWord_blk, extractLsb'_byte]
  · rw [step_hostNext_rd, hread]

/-- R22: `BLK_CNT` reads as its value. -/
theorem read_blkCnt (r : Regs) : r.read regBlkCnt = BitVec.ofNat 32 r.blkCnt.toNat :=
  (BitVec.ofNat_toNat 32 r.blkCnt).symm

/-- Settles O40: the five bits kept are the remainder by 32. -/
theorem blkCntKeepsFiveBits : Obligations.BlkCntKeepsFiveBits := by
  intro s v hf
  have hkept : (v.setWidth 5).toNat = v.toNat % 32 := BitVec.toNat_setWidth 5 v
  refine ⟨{ s with regs := { s.regs with blkCnt := v.setWidth 5 } }, ?_, rfl, hkept, ?_⟩
  · rw [step_hostNext_wr s v (by decide), Regs.write_blkCnt hf]
  · rw [step_hostNext_rd, read_blkCnt, hkept]

/-- Settles O41: what is kept is the value truncated to `AW` bits. -/
theorem regionRegistersKeepAwBits : Obligations.RegionRegistersKeepAwBits := by
  intro s v hf
  refine ⟨⟨?_, ?_, ?_⟩, truncAw_toNat s.cfg v, step_hostNext_rd s 2, step_hostNext_rd s 3,
    step_hostNext_rd s 4⟩
  · rw [step_hostNext_wr s v (by decide), Regs.write_dstBase hf, truncAw]
  · rw [step_hostNext_wr s v (by decide), Regs.write_dstLen hf, truncAw]
  · rw [step_hostNext_wr s v (by decide), Regs.write_pitch hf, truncAw]

/-- Settles O42, by the numbers that name no register. -/
theorem unassignedNumbersIgnoreWritesAndReadZero :
    Obligations.UnassignedNumbersIgnoreWritesAndReadZero := by
  intro s reg v
  refine ⟨fun hreg => ?_, fun hreg => ?_, step_hostNext_rd s reg, step_hostNext_rd s 0,
    step_hostNext_rd s 1⟩
  · have hcmd : reg ≠ 0 := by omega
    rw [step_hostNext_wr s v hcmd, Regs.write_ignored v hreg]
  · rw [step_hostNext_rd, Regs.read_unassigned hreg]

/-! ## `STATUS` (R25) -/

theorem read_status (r : Regs) : r.read regStatus = r.status.word := rfl

/-- R25, R216: `STATUS` of a core in order: no fault and no cause, or as one of the four faults
leaves it. -/
theorem status_cases {c : Config} {r : Regs} (h : r.recordsTruly c) :
    (∃ done, r.status = ⟨done, false, 0⟩) ∨ ∃ x, r.status = Status.raised x := by
  rcases hs : r.status with ⟨done, fault, cause⟩
  cases fault with
  | false =>
    obtain rfl : cause = 0 := by simpa [hs] using h.cause_eq_zero (by rw [hs])
    exact .inl ⟨done, rfl⟩
  | true =>
    simp only [Regs.recordsTruly, hs, if_true] at h
    obtain ⟨rfl, hcause⟩ := h
    split at hcause
    · exact .inr ⟨.illegalCommand, by rw [hcause]; rfl⟩
    · obtain ⟨x, -, rfl⟩ := hcause
      exact .inr ⟨x, rfl⟩

/-- Settles O43: the layout for every `STATUS`, the six values by the ways `STATUS` can stand. -/
theorem statusReadsOneOfSixValues : Obligations.StatusReadsOneOfSixValues := by
  refine fun s => ⟨Status.word_toNat s.regs.status, fun hinv => ?_⟩
  obtain ⟨-, hrecords⟩ := inv_regs hinv
  rw [read_status]
  rcases status_cases hrecords with ⟨done, hs⟩ | ⟨x, hs⟩
  · rw [hs]
    cases done <;> decide
  · rw [hs]
    cases x <;> decide

/-! ## Reset (R240) -/

/-- Settles O45: the registers of a reset, in the state it finds. -/
theorem resetClearsTheRegistersAndKeepsDst : Obligations.ResetClearsTheRegistersAndKeepsDst := by
  intro s
  refine ⟨s.resetEvent, step_hostNext_reset s, ?_⟩
  simp [word_status_reset]

/-! ## The host's own memory (R32(b), R50) -/

theorem hostStore_of_fits {s : State} {a : Nat} {bytes : List Byte}
    (h : a + bytes.length ≤ s.cfg.space) : s.hostStore a bytes =
      .next { s with dst := Memory.storeAll s.dst (consecutive a bytes) } := if_pos h

theorem hostStore_past_end {s : State} {a : Nat} {bytes : List Byte}
    (h : s.cfg.space < a + bytes.length) : s.hostStore a bytes = .fault .dstNoSuchAddress :=
  if_neg h.not_ge

theorem hostLoad_of_lt {s : State} {a : Nat} (h : a < s.cfg.space) :
    s.hostLoad a = .next { s with rdata := (Memory.byte s.dst a).setWidth 32 } := if_pos h

theorem hostLoad_past_end {s : State} {a : Nat} (h : s.cfg.space ≤ a) :
    s.hostLoad a = .fault .dstNoSuchAddress := if_neg h.not_gt

/-- Stores to consecutive addresses: the byte in place `j` stays `j` addresses on. -/
theorem lastStore_consecutive (a j : Nat) (bytes : List Byte) :
    lastStore (consecutive a bytes) (a + j) = bytes[j]? := by
  induction bytes generalizing a j with
  | nil => rfl
  | cons v rest ih =>
    cases j with
    | zero =>
      have hlater : lastStore (consecutive (a + 1) rest) a = none :=
        lastStore_eq_none.2 fun st hst => (Nat.lt_of_succ_le (mem_consecutive hst).1).ne'
      simp [consecutive, lastStore, hlater]
    | succ j =>
      have hnext : a + (j + 1) = a + 1 + j := by omega
      have hne : a + 1 + j ≠ a := by omega
      simp [consecutive, lastStore, hnext, ih, hne]

/-- Settles O54: the stores go to consecutive addresses, so the last store to each is its only
one. -/
theorem hostStoresItsOwnMemory : Obligations.HostStoresItsOwnMemory := by
  refine fun s a bytes => ⟨fun hfits => ?_, fun hpast => ?_⟩
  · refine ⟨_, (step_hostNext_mem s a bytes).trans (hostStore_of_fits hfits), rfl,
      fun j hj => ?_, fun x hx => Memory.read_storeAll_of_ne fun st hst => ?_⟩
    · rw [Memory.read_storeAll, lastStore_consecutive, List.getElem?_eq_getElem hj, Option.some_or]
    · have := mem_consecutive hst
      omega
  · rw [step_hostNext_mem, hostStore_past_end hpast]

/-- R178: a byte outside a command's write set is as before, however the command ends. -/
theorem read_exec_outside {i : Instr} {s t : State} {a : Nat} (h : exec i s = .next t)
    (ha : ∀ o ∈ writeSet i s.regs.pitch.toNat, a ≠ s.regs.dstBase.toNat + o) :
    Memory.read t.dst a = Memory.read s.dst a := by
  rcases exec_cases h with ⟨-, rfl⟩ | ⟨x, -, -, rfl⟩ | ⟨-, rfl⟩
  · rfl
  · rfl
  · exact read_after_outside fun p hp k hk => ha _ (mem_writeSet.2 ⟨p, hp, k, hk, rfl⟩)

/-- Settles O57, by the two ways a host read of `DST` ends and by what a command leaves alone. -/
theorem hostReadsEveryByteOfDst : Obligations.HostReadsEveryByteOfDst := by
  refine fun s a => ⟨fun hlt => ?_, fun hge => ?_, fun v => Memory.byte_of_read, ?_⟩
  · rw [step_hostNext_load, hostLoad_of_lt hlt]
  · rw [step_hostNext_load, hostLoad_past_end hge]
  · intro i t hexec hout
    exact Memory.byte_congr (read_exec_outside hexec hout)

end Sys2Proof.Proofs
end

