-- ==== Sys2Proof/Proofs/Memory.lean ====
section
/-! PROOFS. The statements about `DST` (20_memory.md): where a command stores and what stays there,
commands in order on one core, and commands that run together on different cores. -/

namespace Sys2Proof.Proofs

open Sys2Proof Sys2Proof.Machine Sys2Proof.Claims

/-! ## Outside the region (R51, R214) -/

/-- Settles O18, by the ways a command ends: it stores only where its checks have passed, and then
every store is inside the region. -/
theorem noStoreOutsideTheRegion : Obligations.NoStoreOutsideTheRegion := by
  intro i s t a hexec ha
  rcases exec_cases hexec with ⟨-, rfl⟩ | ⟨x, -, -, rfl⟩ | ⟨hready, rfl⟩
  · rfl
  · rfl
  · refine Memory.read_storeAll_of_ne fun st hst => ?_
    obtain ⟨hge, hlt, -⟩ := recipe_in_region (Regs.ready_iff.1 hready).2 hst
    omega

/-! ## Running a command again (R57) -/

/-- Stores made a second time change nothing in a memory in canonical form. -/
theorem storeAll_storeAll_self {m : Memory} (hm : Memory.wf m) (l : List Store) :
    Memory.storeAll (Memory.storeAll m l) l = Memory.storeAll m l := by
  have hwf := Memory.wf_storeAll hm l
  refine Memory.ext_of_wf (Memory.wf_storeAll hwf l) hwf fun a => ?_
  rw [Memory.read_storeAll, Memory.read_storeAll, ← Option.or_assoc, Option.or_self]

/-- A command that has completed may run again, and so may any other that was ready. -/
theorem ready_after_completion {c : Config} {r : Regs} {i : Instr} (h : r.ready c i) (w : Word) :
    ({ r with cmd := w, status := r.status.completed } : Regs).ready c i := h

/-- `CMD` and `STATUS` are no operands of a recipe (R195). -/
theorem recipe_withCmdStatus (i : Instr) (r : Regs) (w : Word) (st : Status) :
    recipe i { r with cmd := w, status := st } = recipe i r :=
  recipe_congr (fun _ _ _ => rfl) rfl

/-- A command after a completed one makes the stores it would have made without it. -/
theorem exec_after_completion {j : Instr} {s : State} (h : s.regs.ready s.cfg j) (w : Word)
    (m : Memory) :
    exec j { s with
      regs := { s.regs with cmd := w, status := s.regs.status.completed }
      dst := m } =
    .next { s with
      regs := { s.regs with cmd := encode j, status := s.regs.status.completed }
      dst := Memory.storeAll m ((recipe j s.regs).map s.regs.absolute) } := by
  refine (exec_ready ?_).trans ?_
  · exact ready_after_completion h w
  · rw [recipe_withCmdStatus]
    rfl

/-- Settles O20, by the ways a command ends: after a fault the core is halted, and after completion
the same stores are made again. -/
theorem runningACommandAgainChangesNothing :
    Obligations.RunningACommandAgainChangesNothing := by
  intro i s t hinv hexec
  rcases exec_cases hexec with ⟨-, rfl⟩ | ⟨x, -, -, rfl⟩ | ⟨hready, rfl⟩
  · exact hexec
  · exact exec_halted rfl
  · obtain ⟨-, -, -, hwf, -⟩ := hinv
    rw [exec_after_completion hready, storeAll_storeAll_self hwf]

/-! ## What a completed command leaves in its tile (R60, R61) -/

/-- The last value stored to an address is what is read there, whatever stood there before. -/
theorem read_storeAll_of_lastStore {m : Memory} {l : List Store} {a : Nat} {v : Byte}
    (h : lastStore l a = some v) : Memory.read (Memory.storeAll m l) a = some v := by
  rw [Memory.read_storeAll, h, Option.some_or]

/-- A ready command stores to every address of its write set. -/
theorem lastStore_writeSet {c : Config} {i : Instr} {r : Regs} (h : r.ready c i) {o : Nat}
    (ho : o ∈ writeSet i r.pitch.toNat) :
    ∃ v, lastStore ((recipe i r).map r.absolute) (r.dstBase.toNat + o) = some v := by
  obtain ⟨-, -, hpitch, -, -⟩ := h
  obtain ⟨p, hp, k, hk, rfl⟩ := mem_writeSet.1 ho
  exact ⟨_, lastStore_recipe hpitch hp hk⟩

/-- The write set of a ready command lies inside the address space (R176, R214). -/
theorem writeSet_lt_space {c : Config} {i : Instr} {r : Regs} (h : r.ready c i) {o : Nat}
    (ho : o ∈ writeSet i r.pitch.toNat) : r.dstBase.toNat + o < c.space := by
  obtain ⟨v, hv⟩ := lastStore_writeSet h ho
  exact (recipe_in_region (Regs.ready_iff.1 h).2 (mem_of_lastStore hv)).2.2

/-- A stored byte is what the host's next read of its address answers. -/
theorem step_hostNext_load_of_read {s : State} {a : Nat} {v : Byte} (ha : a < s.cfg.space)
    (hv : Memory.read s.dst a = some v) :
    step (hostNext s (.load a)) = .next { s with rdata := v.setWidth 32 } := by
  rw [step_hostNext_load, hostLoad_of_lt ha, Memory.byte_of_read hv]

/-- Settles O21: each address of the write set has been stored to, and exists. -/
theorem hostSeesEveryStoreAtOnce : Obligations.HostSeesEveryStoreAtOnce := by
  intro i s hready
  refine ⟨_, exec_ready hready, rfl, fun o ho => ?_⟩
  obtain ⟨v, hv⟩ := lastStore_writeSet hready ho
  have hread := read_storeAll_of_lastStore (m := s.dst) hv
  exact ⟨v, hread, step_hostNext_load_of_read (writeSet_lt_space hready ho) hread⟩

/-- Settles O52: the later command makes the stores it makes alone, to every address of its write
set and to no other. -/
theorem theLaterCommandWins : Obligations.TheLaterCommandWins := by
  intro i j s hi hj
  have hlater := exec_after_completion hj (encode i)
    (Memory.storeAll s.dst ((recipe i s.regs).map s.regs.absolute))
  refine ⟨_, _, _, exec_ready hi, hlater, exec_ready hj, fun o ho => ?_,
    fun a ha => read_exec_outside hlater ha⟩
  obtain ⟨v, hv⟩ := lastStore_writeSet hj ho
  exact (read_storeAll_of_lastStore hv).trans (read_storeAll_of_lastStore hv).symm

/-! ## Several cores (R64, R224) -/

/-- An access other than a turn to another core and a group keeps the registers of the
cores that are not addressed. -/
theorem access_keeps_others {op : HostOp} {s t : State} (hselect : ∀ k, op ≠ .select k)
    (htogether : ∀ cmds, op ≠ .together cmds) (h : s.access op = .next t) :
    t.others = s.others := by
  rcases State.access_cases h with ⟨_, _, -, rfl⟩ | ⟨_, -, rfl⟩ | ⟨-, rfl⟩ | ⟨_, _, -, -, rfl⟩ |
    ⟨_, -, -, rfl⟩ | ⟨k, _, hop, -, -⟩ | ⟨cmds, hop, -, -, -⟩
  · rfl
  · rfl
  · rfl
  · rfl
  · rfl
  · exact absurd hop (hselect k)
  · exact absurd hop (htogether cmds)

/-- Settles O50, by everything a step can do: a command and an illegal word concern the addressed
core alone, and so does each access that is left. -/
theorem otherInstancesKeepTheirRegisters : Obligations.OtherInstancesKeepTheirRegisters := by
  intro s t op rest hhost hselect htogether hstep
  rcases step_cases hstep with ⟨-, rfl⟩ | ⟨_, _, _, -, -, hexec⟩ | ⟨_, _, _, -, -, rfl⟩ |
    ⟨op', _, hhost', -, haccess⟩
  · rfl
  · obtain ⟨cmd, status, dst, rfl⟩ := exec_frame hexec
    rfl
  · rfl
  · obtain ⟨rfl, -⟩ := List.cons.inj (hhost.symm.trans hhost')
    exact access_keeps_others (s := s.popHost) hselect htogether haccess

/-- A group on cores that exist, each named once, runs. -/
theorem together_of_wf {s : State} {cmds : List (Nat × Word)} (hin : ∀ kw ∈ cmds, kw.1 < s.ninst)
    (hnodup : (cmds.map Prod.fst).Nodup) :
    s.together cmds = .next (s.runTogether [] cmds) := by
  have hall : cmds.all (fun kw => decide (kw.1 < s.ninst)) = true := by simpa using hin
  rw [State.together, if_pos hall, if_pos hnodup]

/-- Two commands together on different cores: the first committed, then the second in a race
for the addresses the first has stored to. -/
theorem together_pair {s : State} {j k : Nat} {q r : Regs} (hjk : j ≠ k)
    (hj : s.core? j = some q) (hk : s.core? k = some r) (v w : Word) :
    s.together [(j, v), (k, w)] =
      .next ((s.commitRacing [] j (wordResult v s.cfg q)).commitRacing
        ((wordResult v s.cfg q).stores.map Prod.fst) k (wordResult w s.cfg r)) := by
  have hk' : (s.commitRacing [] j (wordResult v s.cfg q)).core? k = some r :=
    (State.core?_commitRacing_other hjk.symm _ _).trans hk
  rw [together_of_wf (by simp [State.core?_lt hj, State.core?_lt hk]) (by simp [hjk]),
    State.runTogether_cons hj, State.runTogether_cons hk', State.commitRacing_cfg]
  rfl

/-- Stores that race with none are stores in sequence. -/
theorem read_storeRacing_nil (m : Memory) (n : Nat) (l : List Store) (a : Nat) :
    Memory.read (Memory.storeRacing m n [] l) a = Memory.read (Memory.storeAll m l) a := by
  simp [Memory.read_storeRacing, Memory.read_storeAll]

section
variable {m : Memory} {n n' : Nat} {l l' : List Store} {a : Nat}

/-- Two lists in a race, at an address the second does not store to: the first one's outcome. -/
theorem read_race_of_not_mem_second (h : a ∉ l'.map Prod.fst) :
    Memory.read (Memory.storeRacing (Memory.storeRacing m n [] l) n' (l.map Prod.fst) l') a =
      Memory.read (Memory.storeAll m l) a := by
  rw [Memory.read_storeRacing, lastStore_eq_none_of_not_mem h, Option.none_or, ite_self,
    read_storeRacing_nil]

/-- At an address the first does not store to: the second one's outcome. -/
theorem read_race_of_not_mem_first (h : a ∉ l.map Prod.fst) :
    Memory.read (Memory.storeRacing (Memory.storeRacing m n [] l) n' (l.map Prod.fst) l') a =
      Memory.read (Memory.storeAll m l') a := by
  rw [Memory.read_storeRacing, if_neg fun hrace => h hrace.1, read_storeRacing_nil,
    Memory.read_storeAll m l, lastStore_eq_none_of_not_mem h, Option.none_or,
    Memory.read_storeAll]

/-- At an address the second stores to: the outcome of one of the two, by the free value. -/
theorem read_race_of_mem_second (h : a ∈ l'.map Prod.fst) :
    let m' := Memory.storeRacing (Memory.storeRacing m n [] l) n' (l.map Prod.fst) l'
    Memory.read m' a = Memory.read (Memory.storeAll m l) a ∨
      Memory.read m' a = Memory.read (Memory.storeAll m l') a := by
  obtain ⟨v, hv⟩ := lastStore_isSome_of_mem h
  simp only [Memory.read_storeRacing _ n']
  split
  · exact .inl (read_storeRacing_nil ..)
  · exact .inr (by rw [read_storeAll_of_lastStore hv, hv, Option.some_or])

end

/-- Settles O51: the registers by the two commits on different cores, the bytes by the race of
the two lists of stores. -/
theorem commandsTogetherGiveTheUnionOfTheirStores :
    Obligations.CommandsTogetherGiveTheUnionOfTheirStores := by
  intro s j k v w q r hjk hj hk A B
  refine ⟨(s.commitRacing [] j A).commitRacing (A.stores.map Prod.fst) k B, ?_, ?_, ?_, ?_,
    fun a => ⟨read_race_of_not_mem_second, read_race_of_not_mem_first,
      fun _ => read_race_of_mem_second⟩⟩
  · exact (step_hostNext (by simp)).trans (together_pair hjk hj hk v w)
  · rw [State.core?_commitRacing_other hjk, State.core?_commitRacing_same hj]
  · have hk' := (State.core?_commitRacing_other hjk.symm [] A).trans hk
    exact State.core?_commitRacing_same hk' _ B
  · intro n hnj hnk
    rw [State.core?_commitRacing_other hnk, State.core?_commitRacing_other hnj]

end Sys2Proof.Proofs
end

