-- ==== Sys2Proof/Proofs/Encoding.lean ====
section
/-! PROOFS. The statements about encodings (30_encoding.md): the command words, the fields of a block
and the expansions of the pseudo-instructions. -/

namespace Sys2Proof.Proofs

open Sys2Proof Sys2Proof.Machine

/-! ## The command words (R81, R82) -/

/-- Settles O2: the decoder takes each command's word for that command, and takes no other word for
it. -/
theorem decodeAcceptsExactlyTheEncodedWord : Obligations.DecodeAcceptsExactlyTheEncodedWord := by
  intro w i
  constructor
  · exact decode_ok
  · rintro rfl
    exact decode_encode i

/-- Settles O1: each of the six words is its command's encoding, evaluated, and so decodes to it. -/
theorem sixCommandWordsDecode : Obligations.SixCommandWordsDecode :=
  ⟨decode_encode .dcolor, decode_encode .dcolorp, decode_encode .dsharp, decode_encode .dsmooth,
    decode_encode .dmono, decode_encode .ddual⟩

/-! ## Index fields of a block (R86, R88) -/

/-- R172: the `w` bits of pixel `p` are digit `p` of the field, written in base `2 ^ w`. -/
theorem pixelField_eq_digit (f p : Nat) {w : Nat} (hw : 0 < w) :
    pixelField f w p = f / (2 ^ w) ^ p % 2 ^ w := by
  have hwidth : w * p + w - 1 - w * p + 1 = w := by omega
  rw [pixelField, bits_eq, hwidth, Nat.pow_mul]

/-- A number read in groups of `k` digits: digit `p` is digit `p % k` of group `p / k`. -/
theorem digit_eq_digit_of_group (x m p : Nat) {k : Nat} (hk : 0 < k) :
    x / m ^ p % m = x / (m ^ k) ^ (p / k) % m ^ k / m ^ (p % k) % m := by
  have hr : p % k < k := Nat.mod_lt p hk
  have hgroup : m ^ k = m ^ (p % k) * m ^ (k - p % k) := by
    rw [← Nat.pow_add, Nat.add_sub_cancel' hr.le]
  calc x / m ^ p % m
      = x / (m ^ k) ^ (p / k) / m ^ (p % k) % m := by
        rw [Nat.div_div_eq_div_mul, ← Nat.pow_mul, ← Nat.pow_add, Nat.div_add_mod]
    _ = x / (m ^ k) ^ (p / k) / m ^ (p % k) % m ^ (k - p % k) % m :=
        (Nat.mod_mod_of_dvd _ (dvd_pow_self m (Nat.sub_ne_zero_of_lt hr))).symm
    _ = x / (m ^ k) ^ (p / k) % m ^ k / m ^ (p % k) % m := by
        rw [← Nat.mod_mul_right_div_self, ← hgroup]

/-- R10: byte `q` of the colour index word `LE32(b, 4)`. -/
theorem le32_byte (b : Block) {q : Nat} (hq : q < 4) :
    le32 b 4 / 256 ^ q % 256 = b[4 + q].toNat := by
  have h4 := b[4].isLt
  have h5 := b[5].isLt
  have h6 := b[6].isLt
  have h7 := b[7].isLt
  simp only [le32]
  interval_cases q <;> simp only [Nat.reduceAdd, Nat.reducePow] <;> omega

/-- Settles O25: four 2-bit indices to a byte. -/
theorem colourIndexIsLeastSignificantFirst : Obligations.ColourIndexIsLeastSignificantFirst := by
  intro b p h
  calc (colourIndex b p).val
      = le32 b 4 / 4 ^ p % 4 := by simp [colourIndex, pixelField_eq_digit]
    _ = le32 b 4 / 256 ^ (p / 4) % 256 / 4 ^ (p % 4) % 4 :=
        digit_eq_digit_of_group _ 4 p (k := 4) (by decide)
    _ = b[4 + p / 4].toNat / 4 ^ (p % 4) % 4 := by rw [le32_byte b (by omega)]

/-- R88, R151: the index field of a smooth-alpha block as its two groups of 24 bits. -/
theorem alphaField_eq (b : Block) :
    bits (le64 b) 63 16 =
      (b[2].toNat + 2 ^ 8 * b[3].toNat + 2 ^ 16 * b[4].toNat) +
        2 ^ 24 * (b[5].toNat + 2 ^ 8 * b[6].toNat + 2 ^ 16 * b[7].toNat) := by
  have h0 := b[0].isLt
  have h1 := b[1].isLt
  have h2 := b[2].isLt
  have h3 := b[3].isLt
  have h4 := b[4].isLt
  have h5 := b[5].isLt
  have h6 := b[6].isLt
  have h7 := b[7].isLt
  simp only [bits_eq, le64]
  omega

/-- Three bytes hold 24 bits. -/
theorem three_bytes_lt (v0 v1 v2 : Byte) :
    v0.toNat + 2 ^ 8 * v1.toNat + 2 ^ 16 * v2.toNat < 2 ^ 24 := by
  have h0 := v0.isLt
  have h1 := v1.isLt
  have h2 := v2.isLt
  omega

/-- R88, R156: the index of pixel `p` is in group `p / 8` of the index field. -/
theorem alphaIndex_eq (b : Block) (p : Nat) :
    (alphaIndex b p).val =
      bits (le64 b) 63 16 / (2 ^ 24) ^ (p / 8) % 2 ^ 24 / 8 ^ (p % 8) % 8 := by
  have hdigit : (alphaIndex b p).val = bits (le64 b) 63 16 / 8 ^ p % 8 := by
    simp [alphaIndex, pixelField_eq_digit]
  rw [hdigit]
  exact digit_eq_digit_of_group _ 8 p (k := 8) (by decide)

/-- Settles O27: eight 3-bit indices to each group of three bytes. -/
theorem smoothAlphaFieldsAreLeastSignificantFirst :
    Obligations.SmoothAlphaFieldsAreLeastSignificantFirst := by
  intro b
  refine ⟨endpoint0_eq b, endpoint1_eq b, fun p hp => ?_, fun p hp => ?_⟩
  · have hgroup : p / 8 = 0 ∧ p % 8 = p := by omega
    rw [alphaIndex_eq, alphaField_eq, hgroup.1, hgroup.2, Nat.pow_zero, Nat.div_one,
      Nat.add_mul_mod_self_left, Nat.mod_eq_of_lt (three_bytes_lt ..)]
  · have hgroup : (8 + p) / 8 = 1 ∧ (8 + p) % 8 = p := by omega
    rw [alphaIndex_eq, alphaField_eq, hgroup.1, hgroup.2, Nat.pow_one,
      Nat.add_mul_div_left _ _ (by decide), Nat.div_eq_of_lt (three_bytes_lt ..), Nat.zero_add,
      Nat.mod_eq_of_lt (three_bytes_lt ..)]

/-! ## The pseudo-instructions (R92) -/

/-- Word `j` of a list of bytes: four of them, a missing one taken as 0. -/
def blkValue (bytes : List Byte) (j : Nat) : Word :=
  packWord (bytes.getD (4 * j) 0) (bytes.getD (4 * j + 1) 0) (bytes.getD (4 * j + 2) 0)
    (bytes.getD (4 * j + 3) 0)

/-- R92: word `j`, little-endian, as a number. -/
theorem blkValue_eq (bytes : List Byte) (j : Nat) :
    blkValue bytes j = BitVec.ofNat 32 ((bytes.getD (4 * j) 0).toNat +
      2 ^ 8 * (bytes.getD (4 * j + 1) 0).toNat + 2 ^ 16 * (bytes.getD (4 * j + 2) 0).toNat +
      2 ^ 24 * (bytes.getD (4 * j + 3) 0).toNat) := by
  rw [← packWord_toNat, BitVec.ofNat_toNat, BitVec.setWidth_eq, blkValue]

theorem blkValue_zero (a b c d : Byte) (rest : List Byte) :
    blkValue (a :: b :: c :: d :: rest) 0 = packWord a b c d := rfl

/-- The words after the first are those of the bytes after the first four. -/
theorem blkValue_succ (a b c d : Byte) (rest : List Byte) (j : Nat) :
    blkValue (a :: b :: c :: d :: rest) (j + 1) = blkValue rest j := rfl

/-- The pairs of the `WR BLKWk` lines, from word `k` on: one for each four bytes begun. -/
theorem scriptPairs_blkLines (k : Nat) (bytes : List Byte) :
    scriptPairs (blkLines k bytes) =
      (List.range ((bytes.length + 3) / 4)).map fun j => (regBlkW0 + k + j, blkValue bytes j) := by
  induction k, bytes using blkLines.induct with
  | case1 => rfl
  | case2 => simp [blkLines, blkValue]
  | case3 => simp [blkLines, blkValue]
  | case4 => simp [blkLines, blkValue]
  | case5 k a b c d rest ih =>
    have hcount : ((a :: b :: c :: d :: rest).length + 3) / 4 = (rest.length + 3) / 4 + 1 := by
      simp only [List.length_cons]
      omega
    have hreg : ∀ j, regBlkW0 + (k + 1) + j = regBlkW0 + k + (j + 1) := by omega
    rw [blkLines, scriptPairs_wr, ih, hcount, List.range_succ_eq_map]
    simp [Function.comp_def, hreg, blkValue_zero, blkValue_succ]

/-- Settles O53: the pairs of the block words, and the count after them. -/
theorem blkPseudoInstructionExpandsToItsPairs :
    Obligations.BlkPseudoInstructionExpandsToItsPairs := by
  intro bytes
  simp only [Pseudo.expand, scriptPairs_append, scriptPairs_blkLines, scriptPairs_wr,
    scriptPairs_nil, blkValue_eq, Nat.add_zero]

/-- Settles O56: `DST` writes the three region registers, a mnemonic the encoding of its command,
and `WAIT` reads `STATUS`. -/
theorem otherPseudoInstructionsExpandAsTabled :
    Obligations.OtherPseudoInstructionsExpandAsTabled :=
  ⟨Pseudo.expand_dst, Pseudo.expand_command .dcolor, Pseudo.expand_command .dcolorp,
    Pseudo.expand_command .dsharp, Pseudo.expand_command .dsmooth, Pseudo.expand_command .dmono,
    Pseudo.expand_command .ddual, Pseudo.expand_wait⟩

end Sys2Proof.Proofs
end

