-- ==== Sys2Proof/Proofs/ColorBlock.lean ====
section
/-! PROOFS. The statements about the colour block (40_color_block.md): the entries of the palette as
numbers in each mode, a block with equal reference words, and the alpha bytes of a colour tile. -/

namespace Sys2Proof.Proofs

open Sys2Proof Sys2Proof.Machine

/-! ## Reference colours (R113) -/

/-- R85: in a 16-bit word the red field is everything from bit 11 up. -/
theorem red_mod_eq {c : Nat} (h : c < 65536) : c / 2048 % 32 = c / 2048 :=
  Nat.mod_eq_of_lt (by omega)

/-- R114: the two modes exhaust the cases. -/
theorem four_or_three_colour (c0 c1 : Nat) (o : Bool) :
    (c1 < c0 ∨ o = true) ∨ (c0 ≤ c1 ∧ o = false) := by
  cases o with
  | true => exact .inl (.inr rfl)
  | false => exact (Nat.lt_or_ge c1 c0).imp .inl fun h => ⟨h, rfl⟩

/-- R113: entries 0 and 1 do not depend on the mode. -/
theorem colourPalette_reference_entries (c0 c1 : Nat) (o : Bool) :
    (colourPalette c0 c1 o)[0] = expanded (unpack565 c0) ∧
      (colourPalette c0 c1 o)[1] = expanded (unpack565 c1) := by
  rcases four_or_three_colour c0 c1 o with hfour | ⟨hthree, rfl⟩
  · rw [colourPalette_four hfour]
    exact ⟨rfl, rfl⟩
  · rw [colourPalette_three hthree]
    exact ⟨rfl, rfl⟩

/-- R113: an expanded 16-bit reference colour, by its fields. -/
theorem expanded_values {c : Nat} (h : c < 65536) :
    (expanded (unpack565 c)).r.toNat = (c / 2048 * 527 + 23) / 64 ∧
      (expanded (unpack565 c)).g.toNat = (c / 32 % 64 * 259 + 33) / 64 ∧
      (expanded (unpack565 c)).b.toNat = (c % 32 * 527 + 23) / 64 ∧
      (expanded (unpack565 c)).a = 0xFF := by
  obtain ⟨hr, hg, hb⟩ := expanded_toNat c
  rw [red_mod_eq h] at hr
  exact ⟨hr, hg, hb, rfl⟩

/-- Settles O28: in both modes the entries are the expanded reference colours. -/
theorem referenceColourEntries : Obligations.ReferenceColourEntries := by
  intro c0 c1 o h0 h1
  obtain ⟨e0, e1⟩ := colourPalette_reference_entries c0 c1 o
  simp only [e0, e1]
  exact ⟨expanded_values h0, expanded_values h1⟩

/-! ## Mixed colours (R115, R117) -/

/-- R115: a two-thirds mix of 16-bit reference colours, by their fields. -/
theorem twoThirds_values {x y : Nat} (hx : x < 65536) (hy : y < 65536) :
    (twoThirds (unpack565 x) (unpack565 y)).r.toNat =
        ((2 * (x / 2048) + y / 2048) * 351 + 61) / 128 ∧
      (twoThirds (unpack565 x) (unpack565 y)).g.toNat =
        ((2 * (x / 32 % 64) + y / 32 % 64) * 2763 + 1039) / 2048 ∧
      (twoThirds (unpack565 x) (unpack565 y)).b.toNat =
        ((2 * (x % 32) + y % 32) * 351 + 61) / 128 ∧
      (twoThirds (unpack565 x) (unpack565 y)).a = 0xFF := by
  obtain ⟨hr, hg, hb⟩ := twoThirds_toNat x y
  rw [red_mod_eq hx, red_mod_eq hy] at hr
  exact ⟨hr, hg, hb, rfl⟩

/-- Settles O29: both entries are two-thirds mixes; entry 3 takes the colours in the other order, so
its field sums are turned round. -/
theorem fourColourPaletteValues : Obligations.FourColourPaletteValues := by
  intro c0 c1 o h0 h1 hfour
  obtain ⟨hr, hg, hb, ha⟩ := twoThirds_values h1 h0
  rw [Nat.add_comm (2 * _)] at hr hg hb
  rw [colourPalette_four hfour]
  exact ⟨twoThirds_values h0 h1, hr, hg, hb, ha⟩

/-- Settles O30: entry 2 is the mix of two halves, entry 3 transparent black. -/
theorem threeColourPaletteValues : Obligations.ThreeColourPaletteValues := by
  intro c0 c1 h0 h1 hthree
  obtain ⟨hr, hg, hb⟩ := halfMix_toNat c0 c1
  rw [red_mod_eq h0, red_mod_eq h1] at hr
  rw [colourPalette_three hthree]
  exact ⟨⟨hr, hg, hb, rfl⟩, rfl⟩

/-! ## Equal reference words (R123) -/

/-- R115's corner case: a colour mixed with itself is that colour, expanded. -/
theorem twoThirds_self (c : Nat) :
    twoThirds (unpack565 c) (unpack565 c) = expanded (unpack565 c) := by
  have hsum : ∀ x, 2 * x + x = 3 * x := fun x => (Nat.succ_mul 2 x).symm
  simp only [twoThirds, expanded, hsum, third5_triple _ (unpack565_r_le c),
    third6_triple _ (unpack565_g_le c), third5_triple _ (unpack565_b_le c)]

/-- R117's corner case. -/
theorem halfMix_self (c : Nat) :
    halfMix (unpack565 c) (unpack565 c) = expanded (unpack565 c) := by
  simp only [halfMix, expanded, ← Nat.two_mul, half5_double _ (unpack565_r_le c),
    half6_double _ (unpack565_g_le c), half5_double _ (unpack565_b_le c)]

/-- Settles O33: every mix of a colour with itself is the expanded colour. -/
theorem equalReferenceWordsGiveOneColour : Obligations.EqualReferenceWordsGiveOneColour := by
  intro c _
  rw [colourPalette_three le_rfl, colourPalette_four (.inr rfl), twoThirds_self, halfMix_self]
  exact ⟨⟨rfl, rfl, rfl⟩, ⟨rfl, rfl, rfl⟩, rfl, rfl⟩

/-! ## Alpha bytes of a tile (R121, R122) -/

/-- Every byte of transparent black is zero. -/
theorem transparentBlack_channel (k : Nat) : transparentBlack.channel k = 0x00 := by
  unfold Rgba.channel
  split <;> rfl

/-- Settles O31: byte 3 of a pixel is the alpha of its palette entry, and every entry of the
four-colour palette is opaque. -/
theorem fourColourTilesAreOpaque : Obligations.FourColourTilesAreOpaque := by
  intro i s hready hmode
  obtain ⟨t, hexec, -, htile, -⟩ := exec_ready_tile hready
  refine ⟨t, hexec, fun r hr c hc => ?_⟩
  rcases hmode with rfl | ⟨rfl, hwords⟩
  · exact (htile r hr c hc 3 (by decide)).trans
      (congrArg some (colourPalette_four_alpha (.inr rfl) _))
  · exact (htile r hr c hc 3 (by decide)).trans
      (congrArg some (colourPalette_four_alpha (.inl hwords) _))

/-- Settles O32: the bytes of a pixel are those of its entry of the three-colour palette, of which
entry 3 alone is not opaque. -/
theorem punchThroughPixelsAreTransparentBlack :
    Obligations.PunchThroughPixelsAreTransparentBlack := by
  intro s hready hwords
  obtain ⟨t, hexec, -, htile, -⟩ := exec_ready_tile hready
  refine ⟨t, hexec, fun r hr c hc => ?_⟩
  obtain ⟨hblack, hopaque⟩ :=
    colourPalette_three_get hwords (colourIndex s.regs.loHalf (4 * r + c))
  constructor
  · intro hindex k hk
    have hbyte : (pixelColour s.regs.loHalf false (4 * r + c)).channel k = 0x00 := by
      rw [pixelColour, hblack hindex, transparentBlack_channel]
    exact (htile r hr c hc k hk).trans (congrArg some hbyte)
  · intro hindex
    exact (htile r hr c hc 3 (by decide)).trans (congrArg some (hopaque hindex))

end Sys2Proof.Proofs
end

