-- ==== Sys2Proof/Proofs/SharpAlpha.lean ====
section
/-! PROOFS. The statement about the sharp-alpha block (41_sharp_alpha.md): where the sample of a pixel
lies and the byte that is stored for it. -/

namespace Sys2Proof.Proofs

open Sys2Proof Sys2Proof.Machine

/-- R10: byte `q` of `LE64(b, 0)`. -/
theorem le64_byte (b : Block) {q : Nat} (hq : q < 8) : le64 b / 256 ^ q % 256 = b[q].toNat := by
  have h0 := b[0].isLt
  have h1 := b[1].isLt
  have h2 := b[2].isLt
  have h3 := b[3].isLt
  have h4 := b[4].isLt
  have h5 := b[5].isLt
  have h6 := b[6].isLt
  have h7 := b[7].isLt
  simp only [le64]
  interval_cases q <;> simp only [Nat.reducePow] <;> omega

/-- R141: the sample of pixel `p` is hexadecimal digit `p` of `LE64(b, 0)`. -/
theorem sharpSample_eq_digit (b : Block) (p : Nat) : sharpSample b p = le64 b / 16 ^ p % 16 :=
  pixelField_eq_digit (le64 b) p (w := 4) (by decide)

/-- R87: two samples to a byte. -/
theorem sharpSample_eq_nibble (b : Block) {p : Nat} (hp : p < 16) :
    sharpSample b p = b[p / 2].toNat / 16 ^ (p % 2) % 16 := by
  calc sharpSample b p
      = le64 b / 16 ^ p % 16 := sharpSample_eq_digit b p
    _ = le64 b / 256 ^ (p / 2) % 256 / 16 ^ (p % 2) % 16 :=
        digit_eq_digit_of_group _ 16 p (k := 2) (by decide)
    _ = b[p / 2].toNat / 16 ^ (p % 2) % 16 := by rw [le64_byte b (by omega)]

/-- R141: a sample is 0 to 15. -/
theorem sharpSample_lt (b : Block) (p : Nat) : sharpSample b p < 16 := by
  rw [sharpSample_eq_digit]
  exact Nat.mod_lt _ (by decide)

/-- R142: the product is at most 255, so that the byte holds all of it. -/
theorem sharpValue_toNat (b : Block) (p : Nat) :
    (sharpValue b p).toNat = 17 * sharpSample b p := by
  have hsample := sharpSample_lt b p
  rw [sharpValue, byteOf_toNat (by omega), Nat.mul_comm]

/-- Settles O26: the sample is a digit of its byte, and 17 times a digit fits in a byte. -/
theorem sharpAlphaIsTheNibbleTimesSeventeen : Obligations.SharpAlphaIsTheNibbleTimesSeventeen :=
  fun b p hp => ⟨sharpSample_eq_nibble b hp, sharpValue_toNat b p⟩

end Sys2Proof.Proofs
end

