-- ==== Sys2Proof/Proofs/SmoothAlpha.lean ====
section
/-! PROOFS. The statements about the smooth-alpha palette (42_smooth_alpha.md): the entries of both
ramps as numbers, and their order. Both ramps are read as one line from `E0` to `E1`, of 7 or of 5
equal parts, whose two ends are the endpoints themselves. -/

namespace Sys2Proof.Proofs

open Sys2Proof Sys2Proof.Machine

/-! ## The truncated line between two endpoints (R154, R155, R159) -/

/-- Point `j` of the line from `e0` to `e1` in `n` equal parts, truncating (R9). -/
def linePoint (n e0 e1 j : Nat) : Nat := ((n - j) * e0 + j * e1) / n

theorem linePoint_zero {n : Nat} (hn : 0 < n) (e0 e1 : Nat) : linePoint n e0 e1 0 = e0 := by
  simp [linePoint, Nat.mul_div_cancel_left _ hn]

theorem linePoint_last {n : Nat} (hn : 0 < n) (e0 e1 : Nat) : linePoint n e0 e1 n = e1 := by
  simp [linePoint, Nat.mul_div_cancel_left _ hn]

/-- The weights of a point sum to `n`, so that it stays below any bound of both endpoints. -/
theorem linePoint_le {n e0 e1 j m : Nat} (hj : j ≤ n) (h0 : e0 ≤ m) (h1 : e1 ≤ m) :
    linePoint n e0 e1 j ≤ m := by
  apply Nat.div_le_of_le_mul
  calc (n - j) * e0 + j * e1
      ≤ (n - j) * m + j * m := Nat.add_le_add (Nat.mul_le_mul_left _ h0) (Nat.mul_le_mul_left _ h1)
    _ = n * m := by rw [← Nat.add_mul, Nat.sub_add_cancel hj]

/-- From one point to the next a single weight passes from `e0` to `e1`. -/
theorem linePoint_eq_and_succ_eq {n j : Nat} (hj : j < n) (e0 e1 : Nat) :
    linePoint n e0 e1 j = ((n - (j + 1)) * e0 + j * e1 + e0) / n ∧
      linePoint n e0 e1 (j + 1) = ((n - (j + 1)) * e0 + j * e1 + e1) / n := by
  have hweight : n - j = n - (j + 1) + 1 := by omega
  constructor
  · rw [linePoint, hweight, Nat.succ_mul, Nat.add_right_comm]
  · rw [linePoint, Nat.succ_mul, Nat.add_assoc]

/-- R159: the line falls when its first endpoint is the greater one. -/
theorem linePoint_succ_le {n e0 e1 j : Nat} (h : e1 ≤ e0) (hj : j < n) :
    linePoint n e0 e1 (j + 1) ≤ linePoint n e0 e1 j := by
  obtain ⟨hpoint, hsucc⟩ := linePoint_eq_and_succ_eq hj e0 e1
  rw [hpoint, hsucc]
  exact Nat.div_le_div_right (Nat.add_le_add_left h _)

/-- R159: otherwise it rises. -/
theorem linePoint_le_succ {n e0 e1 j : Nat} (h : e0 ≤ e1) (hj : j < n) :
    linePoint n e0 e1 j ≤ linePoint n e0 e1 (j + 1) := by
  obtain ⟨hpoint, hsucc⟩ := linePoint_eq_and_succ_eq hj e0 e1
  rw [hpoint, hsucc]
  exact Nat.div_le_div_right (Nat.add_le_add_left h _)

/-- Point `k + 1` as R154 and R155 write it: `n` parts have `n - 1` points inside. -/
theorem linePoint_inner (n e0 e1 k : Nat) :
    linePoint (n + 1) e0 e1 (k + 1) = ((n - k) * e0 + (1 + k) * e1) / (n + 1) := by
  rw [linePoint, Nat.add_sub_add_right, Nat.add_comm k 1]

/-- The byte of a point. -/
def lineByte (n e0 e1 j : Nat) : Byte := byteOf (linePoint n e0 e1 j)

/-- R152: the ends of the line are the endpoints' own bytes. -/
theorem lineByte_zero {n : Nat} (hn : 0 < n) (e0 e1 : Nat) : lineByte n e0 e1 0 = byteOf e0 := by
  rw [lineByte, linePoint_zero hn]

theorem lineByte_last {n : Nat} (hn : 0 < n) (e0 e1 : Nat) : lineByte n e0 e1 n = byteOf e1 := by
  rw [lineByte, linePoint_last hn]

/-- Between endpoints of 8 bits the byte holds all of the point. -/
theorem lineByte_toNat {n e0 e1 j : Nat} (h0 : e0 < 256) (h1 : e1 < 256) (hj : j ≤ n) :
    (lineByte n e0 e1 j).toNat = linePoint n e0 e1 j :=
  byteOf_toNat (Nat.lt_succ_of_le (linePoint_le hj (Nat.le_of_lt_succ h0) (Nat.le_of_lt_succ h1)))

/-- R159, for the bytes. -/
theorem lineByte_succ_le {n e0 e1 j : Nat} (h0 : e0 < 256) (h : e1 ≤ e0) (hj : j < n) :
    (lineByte n e0 e1 (j + 1)).toNat ≤ (lineByte n e0 e1 j).toNat := by
  have h1 := h.trans_lt h0
  rw [lineByte_toNat h0 h1 hj, lineByte_toNat h0 h1 hj.le]
  exact linePoint_succ_le h hj

theorem lineByte_le_succ {n e0 e1 j : Nat} (h1 : e1 < 256) (h : e0 ≤ e1) (hj : j < n) :
    (lineByte n e0 e1 j).toNat ≤ (lineByte n e0 e1 (j + 1)).toNat := by
  have h0 := h.trans_lt h1
  rw [lineByte_toNat h0 h1 hj, lineByte_toNat h0 h1 hj.le]
  exact linePoint_le_succ h hj

/-! ## The palette by mode (R152 to R155) -/

/-- R154: entry `2 + k` is point `k + 1` of 7 parts. -/
theorem sixEntry_eq_lineByte (e0 e1 k : Nat) : sixEntry e0 e1 k = lineByte 7 e0 e1 (k + 1) := by
  rw [sixEntry, lineByte, linePoint_inner]

/-- R155: entry `2 + k` is point `k + 1` of 5 parts. -/
theorem fourEntry_eq_lineByte (e0 e1 k : Nat) : fourEntry e0 e1 k = lineByte 5 e0 e1 (k + 1) := by
  rw [fourEntry, lineByte, linePoint_inner]

/-- R152, R154: the six-step palette is the line in 7 parts, its two ends in front. -/
theorem alphaPalette_six {e0 e1 : Nat} (h : e1 < e0) :
    alphaPalette e0 e1 =
      #v[lineByte 7 e0 e1 0, lineByte 7 e0 e1 7, lineByte 7 e0 e1 1, lineByte 7 e0 e1 2,
        lineByte 7 e0 e1 3, lineByte 7 e0 e1 4, lineByte 7 e0 e1 5, lineByte 7 e0 e1 6] := by
  have hmode : sixStep e0 e1 = true := decide_eq_true h
  simp [alphaPalette, hmode, sixEntry_eq_lineByte, lineByte_zero, lineByte_last]

/-- R152, R155: the four-step palette is the line in 5 parts, its two ends in front, and the fixed
entries. -/
theorem alphaPalette_four {e0 e1 : Nat} (h : e0 ≤ e1) :
    alphaPalette e0 e1 =
      #v[lineByte 5 e0 e1 0, lineByte 5 e0 e1 5, lineByte 5 e0 e1 1, lineByte 5 e0 e1 2,
        lineByte 5 e0 e1 3, lineByte 5 e0 e1 4, 0x00, 0xFF] := by
  have hmode : sixStep e0 e1 = false := decide_eq_false h.not_gt
  simp [alphaPalette, hmode, fourEntry_eq_lineByte, lineByte_zero, lineByte_last]

/-- R154: the entries between the endpoints. -/
theorem alphaPalette_six_entry {e0 e1 k : Nat} (h : e1 < e0) (hk : k < 6) :
    (alphaPalette e0 e1)[2 + k] = lineByte 7 e0 e1 (k + 1) := by
  simp only [alphaPalette_six h]
  interval_cases k <;> rfl

/-- R155: the entries between the endpoints. -/
theorem alphaPalette_four_entry {e0 e1 k : Nat} (h : e0 ≤ e1) (hk : k < 4) :
    (alphaPalette e0 e1)[2 + k] = lineByte 5 e0 e1 (k + 1) := by
  simp only [alphaPalette_four h]
  interval_cases k <;> rfl

/-- R152: entries 0 and 1 are the endpoints, whatever the mode. -/
theorem alphaPalette_endpoints {e0 e1 : Nat} (h0 : e0 < 256) (h1 : e1 < 256) :
    (alphaPalette e0 e1)[0].toNat = e0 ∧ (alphaPalette e0 e1)[1].toNat = e1 := by
  unfold alphaPalette
  split <;> exact ⟨byteOf_toNat h0, byteOf_toNat h1⟩

/-! ## The statements -/

/-- Settles O34: the endpoints, and the six points inside the line in 7 parts. -/
theorem sixStepRampValues : Obligations.SixStepRampValues := by
  intro e0 e1 h0 hsix
  have h1 := hsix.trans h0
  obtain ⟨hfirst, hlast⟩ := alphaPalette_endpoints h0 h1
  refine ⟨hfirst, hlast, fun k hk => ?_⟩
  rw [alphaPalette_six_entry hsix hk, lineByte_toNat h0 h1 (by omega), linePoint_inner]

/-- Settles O35: the endpoints, four points inside the line in 5 parts, and the fixed entries. -/
theorem fourStepRampValues : Obligations.FourStepRampValues := by
  intro e0 e1 h1 hfour
  have h0 := hfour.trans_lt h1
  obtain ⟨hfirst, hlast⟩ := alphaPalette_endpoints h0 h1
  refine ⟨hfirst, hlast, fun k hk => ?_, ?_⟩
  · rw [alphaPalette_four_entry hfour hk, lineByte_toNat h0 h1 (by omega), linePoint_inner]
  · simp only [alphaPalette_four hfour]
    exact ⟨rfl, rfl⟩

/-- Settles O36: each link of a chain is a step along the line, down in 7 parts or up in 5. -/
theorem smoothRampsAreMonotone : Obligations.SmoothRampsAreMonotone := by
  intro e0 e1 h0 h1
  constructor
  · intro hsix
    have hdown : ∀ j < 7, (lineByte 7 e0 e1 (j + 1)).toNat ≤ (lineByte 7 e0 e1 j).toNat :=
      fun j => lineByte_succ_le h0 hsix.le
    simp only [alphaPalette_six hsix]
    exact ⟨hdown 0 (by decide), hdown 1 (by decide), hdown 2 (by decide), hdown 3 (by decide),
      hdown 4 (by decide), hdown 5 (by decide), hdown 6 (by decide)⟩
  · intro hfour
    have hup : ∀ j < 5, (lineByte 5 e0 e1 j).toNat ≤ (lineByte 5 e0 e1 (j + 1)).toNat :=
      fun j => lineByte_le_succ h1 hfour
    simp only [alphaPalette_four hfour]
    exact ⟨hup 0 (by decide), hup 1 (by decide), hup 2 (by decide), hup 3 (by decide),
      hup 4 (by decide), rfl, rfl⟩

end Sys2Proof.Proofs
end

