-- ==== Sys2Proof/Proofs/PixelWriter.lean ====
section
/-! PROOFS. The statements about the indexed pixel writer (43_pixel_writer.md): the offsets of a tile's
bytes, the write set of a command and the extraction of indices. -/

namespace Sys2Proof.Proofs

open Sys2Proof Sys2Proof.Machine

/-! ## Offsets (R173, R175) -/

/-- Settles O22: an offset determines its row, then its column, then its channel. -/
theorem rowsOfATileDoNotOverlap : Obligations.RowsOfATileDoNotOverlap :=
  fun _ _ _ _ _ _ hpitch hp hq hj hk h => offset_injective hpitch hp hq hj hk h

/-- R173: the pixel in row `r` and column `c` of the tile. -/
theorem offset_row_col {r c : Nat} (hr : r < 4) (hc : c < 4) (pitch size k : Nat) :
    offset pitch size (4 * r + c) k = r * pitch + (c * size + k) := by
  have hrow : (4 * r + c) / 4 = r := by omega
  have hcol : (4 * r + c) % 4 = c := by omega
  rw [offset_eq (by omega), hrow, hcol, Nat.add_assoc]

/-- Channel `k` of the pixel in column `c` is one of the first `4 * size` bytes of its row. -/
theorem col_mul_add_lt {c k size : Nat} (hc : c < 4) (hk : k < size) :
    c * size + k < 4 * size :=
  calc c * size + k < c * size + size := Nat.add_lt_add_left hk _
    _ = (c + 1) * size := (Nat.succ_mul c size).symm
    _ ≤ 4 * size := Nat.mul_le_mul_right _ hc

/-! ## The write set (R177) -/

/-- Each of the first `4 * pixelSize` bytes of a row is one channel of one of its four pixels. -/
theorem mem_writeSet_iff_row {i : Instr} {pitch o : Nat} :
    o ∈ writeSet i pitch ↔ ∃ r < 4, ∃ b < 4 * pixelSize i, o = r * pitch + b := by
  rw [mem_writeSet]
  constructor
  · rintro ⟨p, hp, k, hk, rfl⟩
    refine ⟨p / 4, by omega, p % 4 * pixelSize i + k, col_mul_add_lt (by omega) hk, ?_⟩
    rw [offset_eq hp, Nat.add_assoc]
  · rintro ⟨r, hr, b, hb, rfl⟩
    have hsize : 0 < pixelSize i := by omega
    have hcol : b / pixelSize i < 4 := Nat.div_lt_of_lt_mul (by rwa [Nat.mul_comm])
    refine ⟨4 * r + b / pixelSize i, by omega, b % pixelSize i, Nat.mod_lt _ hsize, ?_⟩
    rw [offset_row_col hr hcol, Nat.div_add_mod']

/-- The offsets of two channel bytes differ: of one pixel by the channel, of two by the pixel. -/
theorem writeSet_nodup {i : Instr} {pitch : Nat} (hpitch : 4 * pixelSize i ≤ pitch) :
    (writeSet i pitch).Nodup := by
  refine List.nodup_flatMap.2 ⟨fun p hp => ?_, List.nodup_range.imp_of_mem ?_⟩
  · refine List.nodup_range.map_on fun j hj k hk h => ?_
    exact (offset_injective hpitch (mem_pixels.1 hp) (mem_pixels.1 hp) (List.mem_range.1 hj)
      (List.mem_range.1 hk) h).2
  · intro p q hp hq hne o hop hoq
    obtain ⟨j, hj, rfl⟩ := List.mem_map.1 hop
    obtain ⟨k, hk, h⟩ := List.mem_map.1 hoq
    exact hne (offset_injective hpitch (mem_pixels.1 hp) (mem_pixels.1 hq) (List.mem_range.1 hj)
      (List.mem_range.1 hk) h.symm).1

/-- Sixteen pixels of `pixelSize` channels each. -/
theorem writeSet_length (i : Instr) (pitch : Nat) :
    (writeSet i pitch).length = 16 * pixelSize i := by
  simp only [writeSet, List.length_flatMap, List.length_map, List.length_range, List.map_const',
    List.sum_replicate, pixels, smul_eq_mul]

/-- Settles O23: the tile's channel bytes, row by row, and their number. -/
theorem writeSetIsTheTilesFourRows : Obligations.WriteSetIsTheTilesFourRows :=
  fun i pitch => ⟨fun _ => mem_writeSet_iff_row,
    fun hpitch => ⟨writeSet_nodup hpitch, writeSet_length i pitch⟩⟩

/-! ## Index extraction (R172) -/

/-- An accumulator shifted right by `w` for each of `p` pixels has dropped `p` digits in base
`2 ^ w`. -/
theorem iterate_shiftRight_eq_div (w p f : Nat) :
    (fun x => x >>> w)^[p] f = f / (2 ^ w) ^ p := by
  induction p with
  | zero => simp
  | succ p ih =>
    rw [Function.iterate_succ_apply', ih, Nat.shiftRight_eq_div_pow, Nat.div_div_eq_div_mul,
      Nat.pow_succ]

/-- Settles O24: both sides are digit `p` of the field in base `2 ^ w`. -/
theorem indexFieldIsAShiftingAccumulator : Obligations.IndexFieldIsAShiftingAccumulator := by
  intro f w p hw
  rw [pixelField_eq_digit f p hw, iterate_shiftRight_eq_div]

end Sys2Proof.Proofs
end

