-- ==== Sys2Proof/Proofs/Dispatcher.lean ====
section
/-! PROOFS. The statements about the format dispatcher (44_dispatcher.md): a write of `CMD` as one
step, the template of the six commands and the tile of each, when a command completes, and what the
bytes of a tile depend on. -/

namespace Sys2Proof.Proofs

open Sys2Proof Sys2Proof.Machine Sys2Proof.Claims

/-! ## A write of `CMD` (R185) -/

theorem popHost_of_host {s : State} {op : HostOp} {rest : List HostOp} (h : s.host = op :: rest) :
    s.popHost = { s with host := rest } := by
  rw [State.popHost, h, List.tail_cons]

/-- R211: an illegal word on a core that is not halted. -/
theorem illegalCommand_running {s : State} (h : s.regs.status.fault = false) (w : Word) :
    s.illegalCommand w = raised s w 1 := by
  rw [State.illegalCommand, Regs.illegal_running h]
  rfl

theorem illegalCommand_halted {s : State} (h : s.regs.status.fault = true) (w : Word) :
    s.illegalCommand w = s := by
  rw [State.illegalCommand, Regs.illegal_halted h]

/-- Settles O4, by the decoder's answer: a halted core ignores commands and illegal words alike. -/
theorem stepRunsTheDecodedCommand : Obligations.StepRunsTheDecodedCommand := by
  intro s w rest hhost
  have hpop := popHost_of_host hhost
  refine ⟨fun hf => ?_, fun i hd => ?_, fun e hf hd => ?_⟩
  · cases hd : decode w with
    | ok i =>
      rw [step_command hhost hd, hpop]
      exact exec_halted hf
    | error e =>
      rw [step_illegal hhost hd, hpop, illegalCommand_halted]
      exact hf
  · rw [step_command hhost hd, hpop]
  · rw [step_illegal hhost hd, hpop, illegalCommand_running]
    exact hf

/-! ## Completion and faults (R185, R243) -/

/-- Settles O17: a command on a running core either meets a violated check, which raises `FAULT`, or
is ready and completes. -/
theorem doneExactlyWhenTheContractHolds : Obligations.DoneExactlyWhenTheContractHolds := by
  intro i s t hf hexec
  rw [← Regs.violation?_eq_none]
  rcases exec_cases hexec with ⟨hhalted, -⟩ | ⟨x, -, hx, rfl⟩ | ⟨hready, rfl⟩
  · cases hf.symm.trans hhalted
  · simp [hx]
  · simp [hf, (Regs.ready_iff.1 hready).2]

/-! ## The template of the six commands (R187 to R192) -/

/-- The tile of a command started in `s` stands in `t`: every channel byte of every pixel. -/
def HoldsTile (i : Instr) (s t : State) : Prop :=
  ∀ r < 4, ∀ c < 4, ∀ k < pixelSize i,
    Memory.read t.dst (pixelAt s (pixelSize i) r c k) = some (tileByte i s.regs (4 * r + c) k)

/-- A ready command leaves its tile (R193). -/
theorem exec_holdsTile {i : Instr} {s t : State} (h : s.regs.ready s.cfg i)
    (hexec : exec i s = .next t) : HoldsTile i s t := by
  obtain ⟨t', hexec', -, htile, -⟩ := exec_ready_tile h
  cases hexec.symm.trans hexec'
  exact htile

/-- R177: the write set as the rule of a command bounds it. -/
theorem exec_outsideTileUnchanged {i : Instr} {s t : State} (hexec : exec i s = .next t) :
    OutsideTileUnchanged s t (pixelSize i) := by
  intro a ha
  refine read_exec_outside hexec fun o ho => ?_
  obtain ⟨r, hr, b, hb, rfl⟩ := mem_writeSet_iff_row.1 ho
  exact ha r hr b hb

/-- The rule of a command: its checks in R215's order, and what follows from its bytes standing in
the tile. -/
theorem commandRule_of_holdsTile (i : Instr) {tile : State → State → Prop}
    (htile : ∀ s t, HoldsTile i s t → tile s t) :
    CommandRule i (encode i) (blockBytes i) (pixelSize i) tile := by
  refine fun s hf => ⟨fun hshort => ?_, fun hblk hpitch => ?_, fun hblk hpitch hbounds => ?_,
    fun hblk hpitch hfit hlen => ?_⟩
  · exact exec_violation hf (Regs.violation?_inputShort hshort)
  · exact exec_violation hf (Regs.violation?_pitchFault hblk hpitch)
  · exact exec_violation hf (Regs.violation?_outputBounds hblk hpitch hbounds)
  · have hready : s.regs.ready s.cfg i := ⟨hf, hblk, hpitch, hfit, hlen⟩
    have hexec := exec_ready hready
    exact ⟨_, hexec, rfl, exec_outsideTileUnchanged hexec, htile s _ (exec_holdsTile hready hexec)⟩

/-! ## The colour commands (R187, R188) -/

/-- R187: under the forced-opaque flag every pixel has alpha 0xFF. -/
theorem pixelColour_opaque_alpha (b : Block) (p : Nat) : (pixelColour b true p).a = 0xFF :=
  colourPalette_four_alpha (.inr rfl) _

/-- R188: the flag makes no difference when `c0 > c1`. -/
theorem pixelColour_eq_opaque {b : Block} (h : colourWord1 b < colourWord0 b) (p : Nat) :
    pixelColour b false p = pixelColour b true p := by
  rw [pixelColour, pixelColour, colourPalette_four (.inl h), colourPalette_four (.inr rfl)]

/-- R188: index 3 selects transparent black when `c0 ≤ c1`. -/
theorem pixelColour_eq_transparentBlack {b : Block} {p : Nat} (h : colourWord0 b ≤ colourWord1 b)
    (hindex : (colourIndex b p).val = 3) : pixelColour b false p = transparentBlack :=
  (colourPalette_three_get h _).1 hindex

/-- Settles O7: the channels of each pixel's palette entry, which is opaque. -/
theorem dcolorDecodesAnOpaqueTile : Obligations.DcolorDecodesAnOpaqueTile := by
  refine commandRule_of_holdsTile .dcolor fun s t htile r hr c hc => ?_
  have hbyte := htile r hr c hc
  exact ⟨hbyte 0 (by decide), hbyte 1 (by decide), hbyte 2 (by decide),
    (hbyte 3 (by decide)).trans (congrArg some (pixelColour_opaque_alpha _ _))⟩

/-- Settles O8: the channels of each pixel's palette entry, by the order of the reference words. -/
theorem dcolorpDecodesAPunchThroughTile : Obligations.DcolorpDecodesAPunchThroughTile := by
  refine commandRule_of_holdsTile .dcolorp fun s t htile r hr c hc => ?_
  have hbyte := htile r hr c hc
  refine ⟨⟨hbyte 0 (by decide), hbyte 1 (by decide), hbyte 2 (by decide), hbyte 3 (by decide)⟩,
    fun hfour => pixelColour_eq_opaque hfour _, fun hthree hindex k hk => ?_⟩
  rw [← transparentBlack_channel k, ← pixelColour_eq_transparentBlack hthree hindex]
  exact hbyte k hk

/-! ## The commands with an alpha or a smooth channel (R189 to R192) -/

/-- R189: the product in the order in which the rule writes it. -/
theorem sharpValue_eq (b : Block) (p : Nat) :
    sharpValue b p = BitVec.ofNat 8 (17 * sharpSample b p) := by
  rw [sharpValue, byteOf, Nat.mul_comm]

/-- R156: the smooth byte, its palette by the first two bytes of the block. -/
theorem smoothValue_eq (b : Block) (p : Nat) :
    smoothValue b p = (alphaPalette b[0].toNat b[1].toNat).get (alphaIndex b p) := by
  rw [smoothValue, endpoint0_eq, endpoint1_eq]

/-- Settles O9: the colour's channels, and the sample's byte over its alpha. -/
theorem dsharpDecodesColourAndSharpAlpha : Obligations.DsharpDecodesColourAndSharpAlpha := by
  refine commandRule_of_holdsTile .dsharp fun s t htile r hr c hc => ?_
  have hbyte := htile r hr c hc
  exact ⟨hbyte 0 (by decide), hbyte 1 (by decide), hbyte 2 (by decide),
    (hbyte 3 (by decide)).trans (congrArg some (sharpValue_eq _ _))⟩

/-- Settles O10: the colour's channels, and the smooth palette's byte over its alpha. -/
theorem dsmoothDecodesColourAndSmoothAlpha : Obligations.DsmoothDecodesColourAndSmoothAlpha := by
  refine commandRule_of_holdsTile .dsmooth fun s t htile r hr c hc => ?_
  have hbyte := htile r hr c hc
  exact ⟨hbyte 0 (by decide), hbyte 1 (by decide), hbyte 2 (by decide),
    (hbyte 3 (by decide)).trans (congrArg some (smoothValue_eq _ _))⟩

/-- Settles O11: the one channel is the smooth palette's byte. -/
theorem dmonoDecodesOneSmoothChannel : Obligations.DmonoDecodesOneSmoothChannel := by
  refine commandRule_of_holdsTile .dmono fun s t htile r hr c hc => ?_
  exact (htile r hr c hc 0 (by decide)).trans (congrArg some (smoothValue_eq _ _))

/-- Settles O12: each channel is the byte of its own half's palette. -/
theorem ddualDecodesTwoSmoothChannels : Obligations.DdualDecodesTwoSmoothChannels := by
  refine commandRule_of_holdsTile .ddual fun s t htile r hr c hc => ?_
  have hbyte := htile r hr c hc
  exact ⟨(hbyte 0 (by decide)).trans (congrArg some (smoothValue_eq _ _)),
    (hbyte 1 (by decide)).trans (congrArg some (smoothValue_eq _ _))⟩

/-! ## What the stored bytes depend on (R195, R196) -/

/-- R51: `DST_BASE` moves the stores of a list and does not change their values. -/
theorem lastStore_map_absolute (r : Regs) (l : List Store) (o : Nat) :
    lastStore (l.map r.absolute) (r.dstBase.toNat + o) = lastStore l o := by
  induction l with
  | nil => rfl
  | cons st l ih =>
    simp only [List.map_cons, Regs.absolute, lastStore, ih, Nat.add_left_cancel_iff]

/-- Settles O19: both states make the same list of stores, each counted from its own `DST_BASE`. -/
theorem storedBytesDependOnCommandBlockAndPitchAlone :
    Obligations.StoredBytesDependOnCommandBlockAndPitchAlone := by
  intro i s s' hready hready' hblk hpitch
  refine ⟨_, _, exec_ready hready, exec_ready hready', fun o ho => ?_⟩
  obtain ⟨v, hv⟩ := lastStore_writeSet hready ho
  refine ⟨v, read_storeAll_of_lastStore hv, read_storeAll_of_lastStore ?_⟩
  rw [lastStore_map_absolute] at hv ⊢
  rw [recipe_congr hblk hpitch, hv]

/-- The channel that `BLK[0..8]` decides in a command that reads two halves (R196): the alpha byte,
or the first channel of `DDUAL`. -/
def loHalfChannel (i : Instr) : Nat := if i = .ddual then 0 else 3

/-- The channels that `BLK[8..16]` decides: the colour bytes, or the second channel of `DDUAL`. -/
def hiHalfChannels (i : Instr) : List Nat := if i = .ddual then [1] else [0, 1, 2]

theorem loHalfChannel_lt :
    ∀ i ∈ [Instr.dsharp, .dsmooth, .ddual], loHalfChannel i < pixelSize i := by decide

theorem hiHalfChannels_lt :
    ∀ i ∈ [Instr.dsharp, .dsmooth, .ddual], ∀ k ∈ hiHalfChannels i, k < pixelSize i := by decide

theorem tileByte_congr_loHalf {i : Instr} {r r' : Regs}
    (hi : i ∈ [Instr.dsharp, .dsmooth, .ddual]) (h : r'.loHalf = r.loHalf) (p : Nat) :
    tileByte i r' p (loHalfChannel i) = tileByte i r p (loHalfChannel i) := by
  simp only [List.mem_cons, List.not_mem_nil, or_false] at hi
  rcases hi with rfl | rfl | rfl
  · exact congrArg (sharpValue · p) h
  · exact congrArg (smoothValue · p) h
  · exact congrArg (smoothValue · p) h

theorem tileByte_congr_hiHalf {i : Instr} {r r' : Regs}
    (hi : i ∈ [Instr.dsharp, .dsmooth, .ddual]) (h : r'.hiHalf = r.hiHalf) (p : Nat) {k : Nat}
    (hk : k ∈ hiHalfChannels i) : tileByte i r' p k = tileByte i r p k := by
  have hcolour : ∀ k ∈ [0, 1, 2], k ≠ 3 := by decide
  simp only [List.mem_cons, List.not_mem_nil, or_false] at hi
  rcases hi with rfl | rfl | rfl
  · simp only [tileByte, if_neg (hcolour k hk), h]
  · simp only [tileByte, if_neg (hcolour k hk), h]
  · obtain rfl : k = 1 := List.mem_singleton.1 hk
    exact congrArg (smoothValue · p) h

/-- Settles O38: both runs leave their tile, and a channel's byte is a function of one half. -/
theorem channelsDoNotInfluenceEachOther : Obligations.ChannelsDoNotInfluenceEachOther := by
  intro i s t u blk hi hready ht hu
  have htileT := exec_holdsTile hready ht
  have htileU := exec_holdsTile (s := withBlk s blk) hready hu
  constructor
  · intro hlow r hr c hc
    have hk := loHalfChannel_lt i hi
    have hhalf : (withBlk s blk).regs.loHalf = s.regs.loHalf := Regs.loHalf_congr hlow
    have hbyte := tileByte_congr_loHalf hi hhalf (4 * r + c)
    exact (htileU r hr c hc _ hk).trans ((congrArg some hbyte).trans (htileT r hr c hc _ hk).symm)
  · intro hhigh r hr c hc k hmem
    have hk := hiHalfChannels_lt i hi k hmem
    have hhalf : (withBlk s blk).regs.hiHalf = s.regs.hiHalf := Regs.hiHalf_congr hhigh
    have hbyte := tileByte_congr_hiHalf hi hhalf (4 * r + c) hmem
    exact (htileU r hr c hc k hk).trans ((congrArg some hbyte).trans (htileT r hr c hc k hk).symm)

/-! ## Two passes and one merged pass (R193) -/

/-- The colour of a pixel with the alpha unit's byte in place of its own. -/
def mergedPixel (b : Block) (alpha : Nat → Byte) (p : Nat) : Rgba :=
  { pixelColour b true p with a := alpha p }

/-- The colour pass and then a pass of an alpha unit (R193). -/
def twoPasses (b : Block) (alpha : Nat → Byte) (pitch : Nat) : List Store :=
  colorPass b true pitch ++ bytePass pitch 4 3 alpha

/-- One pass that stores all four bytes of each pixel. -/
def mergedPass (b : Block) (alpha : Nat → Byte) (pitch : Nat) : List Store :=
  pixels.flatMap fun p => rgbaStores (offset pitch 4 p 0) (mergedPixel b alpha p)

theorem mergedPass_eq_tileStores (b : Block) (alpha : Nat → Byte) (pitch : Nat) :
    mergedPass b alpha pitch =
      tileStores pitch 4 [0, 1, 2, 3] fun p k => (mergedPixel b alpha p).channel k := by
  simp [mergedPass, tileStores, rgbaStores, Rgba.channel, offset]

theorem mergedPixel_channel_of_lt (b : Block) (alpha : Nat → Byte) (p : Nat) {k : Nat}
    (hk : k < 3) : (mergedPixel b alpha p).channel k = (pixelColour b true p).channel k := by
  interval_cases k <;> rfl

/-- The alpha pass overwrites byte 3 of every pixel and leaves the colour's other bytes. -/
theorem lastStore_twoPasses (b : Block) (alpha : Nat → Byte) {r : Regs}
    (hpitch : 16 ≤ r.pitch.toNat) {p k : Nat} (hp : p < 16) (hk : k < 4) :
    lastStore ((twoPasses b alpha r.pitch.toNat).map r.absolute)
        (r.dstBase.toNat + offset r.pitch.toNat 4 p k) =
      some ((mergedPixel b alpha p).channel k) := by
  rw [twoPasses, List.map_append, lastStore_append, colorPass_eq_tileStores, bytePass_eq_tileStores]
  obtain hcolour | rfl : k < 3 ∨ k = 3 := by omega
  · have halpha : lastStore ((tileStores r.pitch.toNat 4 [3] fun p _ => alpha p).map r.absolute)
        (r.dstBase.toNat + offset r.pitch.toNat 4 p k) = none := by
      refine lastStore_tileStores_none fun q hq j hj he => ?_
      obtain rfl : j = 3 := by simpa using hj
      exact hcolour.ne (offset_injective hpitch hp hq hk (by decide) (by omega)).2
    rw [halpha, Option.none_or, lastStore_tileStores hpitch (by decide) _ r hp (by simp; omega),
      mergedPixel_channel_of_lt b alpha p hcolour]
  · rw [lastStore_tileStores hpitch (by decide) (fun p _ => alpha p) r hp (by simp), Option.some_or]
    rfl

/-- At every address the two passes leave what the merged pass leaves. -/
theorem lastStore_twoPasses_eq_mergedPass (b : Block) (alpha : Nat → Byte) {r : Regs}
    (hpitch : 16 ≤ r.pitch.toNat) (a : Nat) :
    lastStore ((twoPasses b alpha r.pitch.toNat).map r.absolute) a =
      lastStore ((mergedPass b alpha r.pitch.toNat).map r.absolute) a := by
  by_cases ha : ∃ p < 16, ∃ k < 4, a = r.dstBase.toNat + offset r.pitch.toNat 4 p k
  · obtain ⟨p, hp, k, hk, rfl⟩ := ha
    rw [lastStore_twoPasses b alpha hpitch hp hk, mergedPass_eq_tileStores,
      lastStore_tileStores hpitch (by decide) _ r hp (by simp; omega)]
  · have hmiss : ∀ (ks : List Nat) (v : Nat → Nat → Byte), (∀ k ∈ ks, k < 4) →
        lastStore ((tileStores r.pitch.toNat 4 ks v).map r.absolute) a = none := fun ks v hks =>
      lastStore_tileStores_none fun p hp k hk he => ha ⟨p, hp, k, hks k hk, he⟩
    rw [twoPasses, List.map_append, lastStore_append, colorPass_eq_tileStores,
      bytePass_eq_tileStores, mergedPass_eq_tileStores, hmiss _ _ (by decide),
      hmiss _ _ (by decide), hmiss _ _ (by decide), Option.none_or]

/-- R59: stores that leave the same value at every address leave one memory in canonical form. -/
theorem storeAll_eq_of_lastStore_eq {m : Memory} (hm : Memory.wf m) {l l' : List Store}
    (h : ∀ a, lastStore l a = lastStore l' a) : Memory.storeAll m l = Memory.storeAll m l' := by
  refine Memory.ext_of_wf (Memory.wf_storeAll hm l) (Memory.wf_storeAll hm l') fun a => ?_
  rw [Memory.read_storeAll, Memory.read_storeAll, h]

/-- Settles O37: both alpha units are a pass over byte 3 of every pixel. -/
theorem mergedPassesLeaveTheSameDst : Obligations.MergedPassesLeaveTheSameDst :=
  fun _ _ b d hm hpitch =>
    ⟨storeAll_eq_of_lastStore_eq hm (lastStore_twoPasses_eq_mergedPass b (sharpValue d) hpitch),
      storeAll_eq_of_lastStore_eq hm (lastStore_twoPasses_eq_mergedPass b (smoothValue d) hpitch)⟩

end Sys2Proof.Proofs
end

