-- ==== Sys2Proof/Proofs/Exceptions.lean ====
section
/-! PROOFS. The statements about exceptions (60_exceptions.md): the fault that a word written to `CMD`
raises, what it depends on and what it changes, and the halt that only a reset ends. -/

namespace Sys2Proof.Proofs

open Sys2Proof Sys2Proof.Machine Sys2Proof.Claims

/-! ## The fault of a word written to `CMD` (R210, R215) -/

/-- R210, R215: the fault that the word `w` raises on a core that is not halted, if it raises one. -/
def wordFault? (w : Word) (c : Config) (r : Regs) : Option Cause :=
  match decode w with
  | .ok i => r.violation? c i
  | .error _ => some .illegalCommand

theorem wordFault?_command {w : Word} {i : Instr} (hd : decode w = .ok i) (c : Config) (r : Regs) :
    wordFault? w c r = r.violation? c i := by
  rw [wordFault?, hd]

theorem wordFault?_illegal {w : Word} {e : DecodeError} (hd : decode w = .error e) (c : Config)
    (r : Regs) : wordFault? w c r = some .illegalCommand := by
  rw [wordFault?, hd]

/-- R221: the registers that the fault of a word depends on. -/
theorem wordFault?_congr (w : Word) (c : Config) {r r' : Regs} (hblkCnt : r'.blkCnt = r.blkCnt)
    (hbase : r'.dstBase = r.dstBase) (hlen : r'.dstLen = r.dstLen) (hpitch : r'.pitch = r.pitch) :
    wordFault? w c r' = wordFault? w c r := by
  cases hd : decode w with
  | ok i =>
    rw [wordFault?_command hd, wordFault?_command hd]
    exact Regs.violation?_congr i hblkCnt hbase hlen hpitch
  | error e => rw [wordFault?_illegal hd, wordFault?_illegal hd]

/-! ## The three ways a write of `CMD` ends (R185) -/

theorem step_hostNext_command (s : State) {w : Word} {i : Instr} (hd : decode w = .ok i) :
    step (hostNext s (.wr 0 w)) = exec i s := step_command rfl hd

theorem step_hostNext_illegal (s : State) {w : Word} {e : DecodeError} (hd : decode w = .error e) :
    step (hostNext s (.wr 0 w)) = .next (s.illegalCommand w) := step_illegal rfl hd

/-- R218: a halted core ignores the write. -/
theorem step_hostNext_cmd_halted {s : State} (hf : s.regs.status.fault = true) (w : Word) :
    step (hostNext s (.wr 0 w)) = .next s :=
  (stepRunsTheDecodedCommand (hostNext s (.wr 0 w)) w s.host rfl).1 hf

/-- R216, R217: whichever the fault, `CMD` takes the word and `STATUS` the cause. -/
theorem step_hostNext_cmd_fault {s : State} {w : Word} {x : Cause}
    (hf : s.regs.status.fault = false) (hx : wordFault? w s.cfg s.regs = some x) :
    step (hostNext s (.wr 0 w)) = .next (raised s w x.code) := by
  cases hd : decode w with
  | ok i =>
    rw [wordFault?_command hd] at hx
    obtain rfl := decode_ok hd
    rw [step_hostNext_command s hd, exec_violation hf hx]
    rfl
  | error e =>
    cases (wordFault?_illegal hd ..).symm.trans hx
    rw [step_hostNext_illegal s hd, illegalCommand_running hf]
    rfl

/-- R185 step 6: without a fault the command completes. -/
theorem step_hostNext_cmd_done {s : State} {w : Word} (hf : s.regs.status.fault = false)
    (hx : wordFault? w s.cfg s.regs = none) :
    ∃ dst, step (hostNext s (.wr 0 w)) = .next { s with
      regs := { s.regs with cmd := w, status := s.regs.status.completed }, dst := dst } := by
  cases hd : decode w with
  | ok i =>
    rw [wordFault?_command hd] at hx
    obtain rfl := decode_ok hd
    exact ⟨_, (step_hostNext_command s hd).trans (exec_ready (Regs.ready_iff.2 ⟨hf, hx⟩))⟩
  | error e => cases (wordFault?_illegal hd ..).symm.trans hx

/-! ## What faults, and what a fault changes (R211, R217, R221) -/

/-- Settles O5: a word that is none of the six is no command's encoding, so the decoder refuses
it. -/
theorem otherWordsRaiseIllegalCommand : Obligations.OtherWordsRaiseIllegalCommand := by
  intro s w hf hw
  have hne : ∀ i, w ≠ encode i := by
    rintro i rfl
    exact hw (by cases i <;> decide)
  obtain ⟨e, hd⟩ := decode_error_iff.2 hne
  exact step_hostNext_cmd_fault hf (wordFault?_illegal hd ..)

/-- Settles O15: both cores ignore the word, or both meet the same fault of it, or none. -/
theorem blockContentsNeverDecideAFault : Obligations.BlockContentsNeverDecideAFault := by
  intro w s s' hcfg hfault hblkCnt hbase hlen hpitch
  have hsame : wordFault? w s'.cfg s'.regs = wordFault? w s.cfg s.regs :=
    hcfg ▸ wordFault?_congr w s'.cfg hblkCnt hbase hlen hpitch
  cases hf : s.regs.status.fault with
  | true =>
    rw [hf] at hfault
    exact ⟨s, s', step_hostNext_cmd_halted hf w, step_hostNext_cmd_halted hfault w,
      hfault.trans hf.symm, nofun, id⟩
  | false =>
    rw [hf] at hfault
    cases hx : wordFault? w s.cfg s.regs with
    | some x =>
      exact ⟨_, _, step_hostNext_cmd_fault hf hx, step_hostNext_cmd_fault hfault (hsame.trans hx),
        rfl, fun _ _ => rfl, fun _ => rfl⟩
    | none =>
      obtain ⟨_, hstep⟩ := step_hostNext_cmd_done hf hx
      obtain ⟨_, hstep'⟩ := step_hostNext_cmd_done hfault (hsame.trans hx)
      refine ⟨_, _, hstep, hstep', hfault.trans hf.symm, fun _ ht => ?_,
        congrArg Status.completed⟩
      cases hf.symm.trans ht

/-- Settles O16: `FAULT` is left set by a halted core, which ignores the word, and by a fault of the
word, but not by a command that completes. -/
theorem faultingCommandStoresNothing : Obligations.FaultingCommandStoresNothing := by
  intro w s t hstep ht
  cases hf : s.regs.status.fault with
  | true =>
    cases (step_hostNext_cmd_halted hf w).symm.trans hstep
    exact ⟨rfl, (Bool.true_and _).symm⟩
  | false =>
    cases hx : wordFault? w s.cfg s.regs with
    | some x =>
      cases (step_hostNext_cmd_fault hf hx).symm.trans hstep
      exact ⟨rfl, rfl⟩
    | none =>
      obtain ⟨_, hdone⟩ := step_hostNext_cmd_done hf hx
      cases hdone.symm.trans hstep
      cases hf.symm.trans ht

/-! ## The halt (R218) -/

/-- R33(c), R218: a halted core ignores a write of any register. -/
theorem step_hostNext_wr_halted {s : State} (hf : s.regs.status.fault = true) (reg : Nat)
    (v : Word) : step (hostNext s (.wr reg v)) = .next s := by
  obtain rfl | hreg := eq_or_ne reg regCmd
  · exact step_hostNext_cmd_halted hf v
  · rw [step_hostNext_wr s v hreg, Regs.write_halted hf]

/-- A halted core keeps its registers through every access but a reset and the host's turning to
another core. -/
theorem access_regs_halted {op : HostOp} {s t : State} (hf : s.regs.status.fault = true)
    (hreset : op ≠ .reset) (hselect : ∀ k, op ≠ .select k) (h : s.access op = .next t) :
    t.regs = s.regs := by
  rcases State.access_cases h with ⟨reg, v, -, rfl⟩ | ⟨_, -, rfl⟩ | ⟨hop, -⟩ |
    ⟨_, _, -, -, rfl⟩ | ⟨_, -, -, rfl⟩ | ⟨k, _, hop, -, -⟩ | ⟨cmds, -, -, -, rfl⟩
  · exact Regs.write_halted hf reg v
  · rfl
  · exact absurd hop hreset
  · rfl
  · rfl
  · exact absurd hop (hselect k)
  · exact State.runTogether_regs_halted hf [] cmds

/-- Settles O6: the halt meets a write of `CMD` in the command and any other write in the register,
and the remaining accesses go by everything an access can do. -/
theorem haltedUntilReset : Obligations.HaltedUntilReset := by
  refine fun s hf => ⟨step_hostNext_wr_halted hf, step_hostNext_rd s,
    ⟨_, step_hostNext_reset s, rfl⟩, fun op t hreset hselect hstep => ?_⟩
  by_cases hop : ∃ w, op = .wr regCmd w
  · obtain ⟨w, rfl⟩ := hop
    cases (step_hostNext_cmd_halted hf w).symm.trans hstep
    rfl
  · rw [step_hostNext fun w hw => hop ⟨w, hw⟩] at hstep
    exact access_regs_halted hf hreset hselect hstep

end Sys2Proof.Proofs
end

