-- ==== Sys2Proof/Proofs/ResetAndHazards.lean ====
section
/-! PROOFS. The statements about reset and hazards (70_reset_and_hazards.md): a write of `CMD` right
after reset, and the two ends of a run. -/

namespace Sys2Proof.Proofs

open Sys2Proof Sys2Proof.Machine Sys2Proof.Claims

/-! ## Right after reset (R241) -/

/-- R82: the six command words. -/
theorem mem_commandWords_iff {w : Word} :
    w ∈ ([0x00000000, 0x00000001, 0x00000002, 0x00000003, 0x00000004, 0x00000008] : List Word) ↔
      ∃ i, w = encode i := by
  constructor
  · intro hw
    simp only [List.mem_cons, List.not_mem_nil, or_false] at hw
    rcases hw with rfl | rfl | rfl | rfl | rfl | rfl
    exacts [⟨.dcolor, rfl⟩, ⟨.dsharp, rfl⟩, ⟨.dsmooth, rfl⟩, ⟨.dmono, rfl⟩, ⟨.ddual, rfl⟩,
      ⟨.dcolorp, rfl⟩]
  · rintro ⟨i, rfl⟩
    cases i <;> decide

/-- R212: every command needs block bytes, and a reset leaves none counted. -/
theorem violation?_reset (c : Config) (n : Nat) (i : Instr) :
    (Regs.reset n).violation? c i = some .inputShort := by
  have hneeds : 0 < blockBytes i := by cases i <;> decide
  exact Regs.violation?_inputShort hneeds

/-- R217: a fault stores nothing. -/
@[simp] theorem raised_dst (s : State) (w : Word) (code : BitVec 4) :
    (raised s w code).dst = s.dst := rfl

@[simp] theorem raised_status (s : State) (w : Word) (x : Cause) :
    (raised s w x.code).regs.status = Status.raised x := rfl

/-- R210: `STATUS` after a fault that a reset core can raise. -/
theorem word_raised_inputShort : (Status.raised .inputShort).word = 0x00000022 := by decide

theorem word_raised_illegalCommand : (Status.raised .illegalCommand).word = 0x00000012 := by decide

/-- Settles O46, by the decoder's answer: right after reset a command is short of input, and any
other word is illegal as always. -/
theorem everyCommandRightAfterResetFaults : Obligations.EveryCommandRightAfterResetFaults := by
  intro s w
  refine ⟨s.resetEvent, step_hostNext_reset s, ?_⟩
  have hclear : s.resetEvent.regs.status.fault = false := rfl
  cases hd : decode w with
  | ok i =>
    have hfault : wordFault? w s.cfg s.resetEvent.regs = some .inputShort :=
      (wordFault?_command hd ..).trans (violation?_reset s.cfg s.fresh i)
    refine ⟨_, step_hostNext_cmd_fault hclear hfault, by simp, ?_⟩
    rw [if_pos (mem_commandWords_iff.2 ⟨i, decode_ok hd⟩), raised_status, word_raised_inputShort]
  | error e =>
    have hillegal : ¬ ∃ i, w = encode i := fun ⟨i, hi⟩ => ne_encode_of_decode_error hd i hi
    refine ⟨_, step_hostNext_cmd_fault hclear (wordFault?_illegal hd ..), by simp, ?_⟩
    rw [if_neg (mt mem_commandWords_iff.1 hillegal), raised_status, word_raised_illegalCommand]

/-! ## The ends of a run (R246) -/

/-- `STATUS` = 0x00000001 says that a command has completed and none has faulted. -/
theorem word_eq_one_iff {st : Status} :
    st.word = 0x00000001 ↔ st.done = true ∧ st.fault = false ∧ st.cause = 0 := by
  obtain ⟨done, fault, cause⟩ := st
  revert done fault cause
  decide

/-- A fault is not a good end: `FAULT` is a bit of `STATUS`. -/
theorem not_endedWell_of_endedInFault {s : State} {k : Nat} (h : s.endedInFault k) :
    ¬ s.endedWell k := by
  rintro ⟨-, r, hr, hword⟩
  obtain ⟨r', hr', hfault⟩ := h
  obtain rfl : r = r' := Option.some.inj (hr.symm.trans hr')
  obtain ⟨-, hclear, -⟩ := word_eq_one_iff.1 hword
  cases hclear.symm.trans hfault

/-- R246 for the core the host addresses. -/
theorem endedWell_zero_iff {s : State} : s.endedWell 0 ↔
    (∀ op ∈ s.host, op.writesCmd = false) ∧ s.regs.status.word = 0x00000001 := by
  simp [State.endedWell, State.core?]

/-- R185 step 6: a core in order that is not halted has no cause, so completion leaves `DONE`
alone set. -/
theorem word_completed {c : Config} {r : Regs} (h : r.recordsTruly c)
    (hf : r.status.fault = false) : r.status.completed.word = 0x00000001 :=
  word_eq_one_iff.2 ⟨rfl, hf, h.cause_eq_zero hf⟩

/-- R25: beside a write of `CMD`, a reset and a turn to another core, no access changes the
addressed core's `STATUS`, nor what else is on the host's list. -/
theorem access_keeps_status_and_host {op : HostOp} {s t : State} (hcmd : op.writesCmd = false)
    (hreset : op ≠ .reset) (hselect : ∀ k, op ≠ .select k) (h : s.access op = .next t) :
    t.regs.status = s.regs.status ∧ t.host = s.host := by
  rcases State.access_cases h with ⟨reg, v, -, rfl⟩ | ⟨_, -, rfl⟩ | ⟨hop, -⟩ |
    ⟨_, _, -, -, rfl⟩ | ⟨_, -, -, rfl⟩ | ⟨k, _, hop, -, -⟩ | ⟨cmds, hop, -, -, rfl⟩
  · exact ⟨Regs.write_status s.cfg s.regs reg v, rfl⟩
  · exact ⟨rfl, rfl⟩
  · exact absurd hop hreset
  · exact ⟨rfl, rfl⟩
  · exact ⟨rfl, rfl⟩
  · exact absurd hop (hselect k)
  · obtain rfl := (HostOp.writesCmd_eq_false.1 hcmd).2 cmds hop
    exact ⟨rfl, rfl⟩

/-- Settles O55: `STATUS` tells the two ends apart, completion sets it to 0x00000001, and the
accesses named keep it. -/
theorem runsEndWellOrInAFault : Obligations.RunsEndWellOrInAFault := by
  refine fun s => ⟨fun k => not_endedWell_of_endedInFault, fun i hinv hready hhost => ?_,
    fun op t hwell hcmd hreset hselect hstep => ?_⟩
  · obtain ⟨-, hrecords⟩ := inv_regs hinv
    have ⟨hclear, _⟩ := hready
    refine ⟨_, (step_hostNext_command s (decode_encode i)).trans (exec_ready hready), ?_⟩
    exact endedWell_zero_iff.2 ⟨hhost, word_completed hrecords hclear⟩
  · rw [step_hostNext (HostOp.writesCmd_eq_false.1 hcmd).1] at hstep
    obtain ⟨hstatus, hhost⟩ := access_keeps_status_and_host hcmd hreset hselect hstep
    rwa [endedWell_zero_iff, hstatus, hhost, ← endedWell_zero_iff]

end Sys2Proof.Proofs
end
